-- ==== Sys2Proof/Word.lean ====
section
/-! DEFINITION. The plain bit-vector types of the rustyflight serial core (spec/00_scope.md R6, R10). -/

namespace Sys2Proof

/-- A byte: 8 bits, unsigned (R10). -/
abbrev Byte := BitVec 8

/-- One proportional channel of an SBUS frame: 11 bits, unsigned (R6, R21). -/
abbrev Channel := BitVec 11

/-- The frame position counter's register: 5 bits (R6, R22). -/
abbrev Position := BitVec 5

end Sys2Proof
end

