-- ==== Sys2Proof/Config.lean ====
section
/-! DEFINITION. What an implementation fixes: the parameters of spec/00_scope.md R6. The capacity of
the outbound queue and the priorities are OPEN in the spec, so they are opaque constants here: nothing
can be proved of their values but what R6 says (logs 1, 2, 3). -/

namespace Sys2Proof

/-- The implementation parameters (R6). A run never changes them. -/
structure Params where
  /-- `LB_CAPACITY`, N. -/
  lbCapacity : Nat
  /-- `OQ_CAPACITY`, M. -/
  oqCapacity : Nat
  /-- `PRIO_SBUS_RX`. -/
  prioSbusRx : Nat
  /-- `PRIO_CONSUMER`. -/
  prioConsumer : Nat
  /-- `PRIO_CONSOLE`. -/
  prioConsole : Nat
deriving DecidableEq, Repr

/-- What R6 fixes of the parameters: `N >= 1`, `M >= 1`, `PRIO_SBUS_RX > PRIO_CONSUMER`. -/
abbrev Params.Legal (p : Params) : Prop :=
  1 ≤ p.lbCapacity ∧ 1 ≤ p.oqCapacity ∧ p.prioConsumer < p.prioSbusRx

/-- FREE VALUE (DESIGN CHOICE, safe, log 2): `OQ_CAPACITY` less one. -/
opaque Config.oqCapacityLessOne : Nat

/-- FREE VALUE (DESIGN CHOICE, safe, log 3): `PRIO_CONSUMER`. -/
opaque Config.prioConsumer : Nat

/-- FREE VALUE (DESIGN CHOICE, safe, log 3): how far `PRIO_SBUS_RX` lies above `PRIO_CONSUMER + 1`. -/
opaque Config.prioGap : Nat

/-- FREE VALUE (DESIGN CHOICE, safe, log 3): `PRIO_CONSOLE`. -/
opaque Config.prioConsole : Nat

/-- The parameters a machine is built with: N at the spec's default, the rest free (R6). -/
def Config.params : Params where
  lbCapacity := 100
  oqCapacity := Config.oqCapacityLessOne + 1
  prioSbusRx := Config.prioConsumer + Config.prioGap + 1
  prioConsumer := Config.prioConsumer
  prioConsole := Config.prioConsole

end Sys2Proof
end

