-- ==== Sys2Proof/Syntax.lean ====
section
/-! DEFINITION. The operations of the block, one constructor per row of spec/opcode_table.json, in the
table's order (spec/00_scope.md R9). An operand is written only where the row leaves it free. -/

namespace Sys2Proof

/-- The 25 operations ("instructions") of the block. -/
inductive Instr where
  /-- `SBUS.SYNC` (R132): the byte is 0x0F. -/
  | sbusSync
  /-- `SBUS.SKIP` (R131): any byte but 0x0F, at position 0. -/
  | sbusSkip (b : Byte)
  /-- `SBUS.CHAN` (R133): any byte, at positions 1 to 22. -/
  | sbusChan (b : Byte)
  /-- `SBUS.FLAGS` (R134): any byte, at position 23. -/
  | sbusFlags (b : Byte)
  /-- `SBUS.TERM.OK` (R135): the byte is 0x00. -/
  | sbusTermOk
  /-- `SBUS.TERM.BAD` (R136): any byte but 0x00, at position 24. -/
  | sbusTermBad (b : Byte)
  /-- `LB.SOL` (R161): code 0x01. -/
  | lbSol
  /-- `LB.LEFT` (R162): code 0x02. -/
  | lbLeft
  /-- `LB.EOL` (R163): code 0x05. -/
  | lbEol
  /-- `LB.RIGHT` (R164): code 0x06. -/
  | lbRight
  /-- `LB.BS` (R165): code 0x08. -/
  | lbBs
  /-- `LB.KILL` (R166): code 0x0B. -/
  | lbKill
  /-- `LB.DEL` (R167): code 0x7F. -/
  | lbDel
  /-- `LB.DROP` (R169): a byte 0x80 to 0xFF. -/
  | lbDrop (b : Byte)
  /-- `LB.INS` (R168): a byte below 0x80 that is none of the seven codes. -/
  | lbIns (b : Byte)
  /-- `SBUS.IDLE` (R137). -/
  | sbusIdle
  /-- `SBUS.READ` (R138). -/
  | sbusRead
  /-- `SBUS.READACC` (R139). -/
  | sbusReadacc
  /-- `LB.CONTENT` (R170). -/
  | lbContent
  /-- `LB.SEQ` (R171): a finite byte sequence. -/
  | lbSeq (bs : List Byte)
  /-- `SUI.WRITE` (R196): any byte, not decoded. -/
  | suiWrite (b : Byte)
  /-- `SUI.EVENT` (R197). -/
  | suiEvent
  /-- `SUI.PROCESS` (R198): any byte, decoded as a console byte. -/
  | suiProcess (b : Byte)
  /-- `SUI.CONTENT` (R199). -/
  | suiContent
  /-- `RESET` (R260). -/
  | reset
deriving DecidableEq, Repr

end Sys2Proof
end

