-- ==== Sys2Proof/WellFormed.lean ====
section
/-! DEFINITION. Which operand values each operation admits (spec/30_encoding.md R99, R100, R101). -/

namespace Sys2Proof

/-- The seven console control codes (R100). -/
def isControlCode (b : Byte) : Bool :=
  b == 0x01 || b == 0x02 || b == 0x05 || b == 0x06 || b == 0x08 || b == 0x0B || b == 0x7F

/-- Class (3) of R101: bit 7 is 0 and the byte is none of the seven codes. -/
def isInsertable (b : Byte) : Bool :=
  !b.getLsbD 7 && !isControlCode b

/-- The operand is one the operation's rule admits. -/
def Instr.wf : Instr → Bool
  | .sbusSync => true
  | .sbusSkip b => b != 0x0F
  | .sbusChan _ => true
  | .sbusFlags _ => true
  | .sbusTermOk => true
  | .sbusTermBad b => b != 0x00
  | .lbSol => true
  | .lbLeft => true
  | .lbEol => true
  | .lbRight => true
  | .lbBs => true
  | .lbKill => true
  | .lbDel => true
  | .lbDrop b => b.getLsbD 7
  | .lbIns b => isInsertable b
  | .sbusIdle => true
  | .sbusRead => true
  | .sbusReadacc => true
  | .lbContent => true
  | .lbSeq _ => true
  | .suiWrite _ => true
  | .suiEvent => true
  | .suiProcess _ => true
  | .suiContent => true
  | .reset => true

end Sys2Proof
end

