-- ==== Sys2Proof/Decode.lean ====
section
/-! DEFINITION. Decoding a call of the block's interface into an operation, and the encoder back
(spec/30_encoding.md R98 to R108). A call is an entry point and its operand bytes; a byte given to
`process_char` is decoded under `POS`, a console byte by its own value alone, every other call by its
entry point. -/

namespace Sys2Proof

/-- The entry points of the block (R9, R105, R107). They are what tells one call from another where
the spec gives no byte encoding. -/
inductive EntryPoint where
  /-- `process_char(byte)` of the decoder. -/
  | processChar
  /-- `process_idle()` of the decoder. -/
  | processIdle
  /-- The accessor for the last completed frame. -/
  | readLast
  /-- The read of the accumulated frame. -/
  | readAcc
  /-- `process(byte)` of the line buffer. -/
  | process
  /-- `content()` of the line buffer. -/
  | content
  /-- `process_sequence(bytes)` of the line buffer. -/
  | processSequence
  /-- `write(byte)` of the Serial UI. -/
  | write
  /-- `on_event()` of the Serial UI. -/
  | onEvent
  /-- `process(byte)` as the Serial UI exposes it. -/
  | uiProcess
  /-- `content()` as the Serial UI exposes it. -/
  | uiContent
  /-- Construction of the three components. -/
  | construct
deriving DecidableEq, Repr

/-- Why a call is no operation of R9. -/
inductive DecodeError where
  /-- The entry point does not take that many operand bytes (log 19). Safe. -/
  | operandCount (e : EntryPoint) (n : Nat)
  /-- `process_char` at a position 25 to 31, which is never held (R22, log 16). Safe. -/
  | positionOutOfRange (p : Position)
deriving DecidableEq, Repr

/-- The byte rows of `process_char` (R98, R130): the position selects, then the byte. -/
def decodeChar (p : Position) (b : Byte) : Except DecodeError Instr :=
  if p = 0 then
    if b = 0x0F then .ok .sbusSync else .ok (.sbusSkip b)
  else if p ≤ 22 then .ok (.sbusChan b)
  else if p = 23 then .ok (.sbusFlags b)
  else if p = 24 then
    if b = 0x00 then .ok .sbusTermOk else .ok (.sbusTermBad b)
  else .error (.positionOutOfRange p)

/-- The complete decode of a console byte, in the order of tests of R101. -/
def decodeConsole (b : Byte) : Instr :=
  if b = 0x01 then .lbSol
  else if b = 0x02 then .lbLeft
  else if b = 0x05 then .lbEol
  else if b = 0x06 then .lbRight
  else if b = 0x08 then .lbBs
  else if b = 0x0B then .lbKill
  else if b = 0x7F then .lbDel
  else if b.getLsbD 7 then .lbDrop b
  else .lbIns b

/-- The operation a call of entry point `e` with operand bytes `bs` selects while `POS` is `p`. -/
def decode (p : Position) (e : EntryPoint) (bs : List Byte) : Except DecodeError Instr :=
  match e, bs with
  | .processChar, [b] => decodeChar p b
  | .processIdle, [] => .ok .sbusIdle
  | .readLast, [] => .ok .sbusRead
  | .readAcc, [] => .ok .sbusReadacc
  | .process, [b] => .ok (decodeConsole b)
  | .content, [] => .ok .lbContent
  | .processSequence, bs => .ok (.lbSeq bs)
  | .write, [b] => .ok (.suiWrite b)
  | .onEvent, [] => .ok .suiEvent
  | .uiProcess, [b] => .ok (.suiProcess b)
  | .uiContent, [] => .ok .suiContent
  | .construct, [] => .ok .reset
  | e, bs => .error (.operandCount e bs.length)

/-- The positions at which an operation can be selected (R130; the table's `pos`): a byte operation of
the decoder at its own positions, every other operation at any position. -/
def Instr.selectedAt (p : Position) : Instr → Bool
  | .sbusSync => p == 0
  | .sbusSkip _ => p == 0
  | .sbusChan _ => decide (1 ≤ p) && decide (p ≤ 22)
  | .sbusFlags _ => p == 23
  | .sbusTermOk => p == 24
  | .sbusTermBad _ => p == 24
  | .lbSol => true
  | .lbLeft => true
  | .lbEol => true
  | .lbRight => true
  | .lbBs => true
  | .lbKill => true
  | .lbDel => true
  | .lbDrop _ => true
  | .lbIns _ => true
  | .sbusIdle => true
  | .sbusRead => true
  | .sbusReadacc => true
  | .lbContent => true
  | .lbSeq _ => true
  | .suiWrite _ => true
  | .suiEvent => true
  | .suiProcess _ => true
  | .suiContent => true
  | .reset => true

/-- The call that stands for an operation: its entry point and its operand bytes, the fixed byte of a
fixed row included (R90, R100, R105). -/
def encode : Instr → EntryPoint × List Byte
  | .sbusSync => (.processChar, [0x0F])
  | .sbusSkip b => (.processChar, [b])
  | .sbusChan b => (.processChar, [b])
  | .sbusFlags b => (.processChar, [b])
  | .sbusTermOk => (.processChar, [0x00])
  | .sbusTermBad b => (.processChar, [b])
  | .lbSol => (.process, [0x01])
  | .lbLeft => (.process, [0x02])
  | .lbEol => (.process, [0x05])
  | .lbRight => (.process, [0x06])
  | .lbBs => (.process, [0x08])
  | .lbKill => (.process, [0x0B])
  | .lbDel => (.process, [0x7F])
  | .lbDrop b => (.process, [b])
  | .lbIns b => (.process, [b])
  | .sbusIdle => (.processIdle, [])
  | .sbusRead => (.readLast, [])
  | .sbusReadacc => (.readAcc, [])
  | .lbContent => (.content, [])
  | .lbSeq bs => (.processSequence, bs)
  | .suiWrite b => (.write, [b])
  | .suiEvent => (.onEvent, [])
  | .suiProcess b => (.uiProcess, [b])
  | .suiContent => (.uiContent, [])
  | .reset => (.construct, [])

/-- Whether an entry point takes `n` operand bytes (R9, R105). -/
def EntryPoint.takes (n : Nat) : EntryPoint → Bool
  | .processChar | .process | .write | .uiProcess => n == 1
  | .processIdle | .readLast | .readAcc | .content | .onEvent | .uiContent | .construct => n == 0
  | .processSequence => true

/-! The two byte formats once more, as the table's own rows (R108). -/

/-- One byte row of spec/opcode_table.json: the positions `lo` to `hi` it applies at (0 to 31 for a
console row, which has no position), its mask and match, and the operation it names. -/
structure ByteRow where
  lo : Nat
  hi : Nat
  mask : Byte
  pattern : Byte
  operation : Byte → Instr

/-- The row applies at position `p` and the byte fits its mask and match (R108). -/
def ByteRow.fits (r : ByteRow) (p : Position) (b : Byte) : Bool :=
  decide (r.lo ≤ p.toNat) && decide (p.toNat ≤ r.hi) && b &&& r.mask == r.pattern

/-- The rows of format `SBUS@POS`, in ascending priority at each position. -/
def sbusRows : List ByteRow :=
  [ ⟨0, 0, 0xFF, 0x0F, fun _ => .sbusSync⟩,
    ⟨0, 0, 0x00, 0x00, .sbusSkip⟩,
    ⟨1, 22, 0x00, 0x00, .sbusChan⟩,
    ⟨23, 23, 0x00, 0x00, .sbusFlags⟩,
    ⟨24, 24, 0xFF, 0x00, fun _ => .sbusTermOk⟩,
    ⟨24, 24, 0x00, 0x00, .sbusTermBad⟩ ]

/-- The rows of format `CON8`, in ascending priority. -/
def consoleRows : List ByteRow :=
  [ ⟨0, 31, 0xFF, 0x01, fun _ => .lbSol⟩,
    ⟨0, 31, 0xFF, 0x02, fun _ => .lbLeft⟩,
    ⟨0, 31, 0xFF, 0x05, fun _ => .lbEol⟩,
    ⟨0, 31, 0xFF, 0x06, fun _ => .lbRight⟩,
    ⟨0, 31, 0xFF, 0x08, fun _ => .lbBs⟩,
    ⟨0, 31, 0xFF, 0x0B, fun _ => .lbKill⟩,
    ⟨0, 31, 0xFF, 0x7F, fun _ => .lbDel⟩,
    ⟨0, 31, 0x80, 0x80, .lbDrop⟩,
    ⟨0, 31, 0x80, 0x00, .lbIns⟩ ]

/-- The first row that fits names the operation (R108). -/
def decodeRows (rows : List ByteRow) (p : Position) (b : Byte) : Option Instr :=
  match rows with
  | [] => none
  | r :: rest => if r.fits p b then some (r.operation b) else decodeRows rest p b

/-! Bare table words, for the host (log 6). -/

/-- The whole bytes of a table word, the first byte in its least significant bits. -/
def tableBytes (nbits w : Nat) : List Byte :=
  (List.range (nbits / 8)).map fun i => BitVec.ofNat 8 (w >>> (8 * i))

/-- Which of the two byte streams a bare table word is read on (DESIGN CHOICE, log 6): at position 0,
where a machine stands after reset, the most specific row that fits: the sync row for 0x0F, otherwise a
console row. -/
def tableEntry (bs : List Byte) : EntryPoint :=
  if bs = [0x0F] then .processChar else .process

/-- The operation the decoder reads from a bare table word, at position 0 (log 6). -/
def decodeTableWord (nbits w : Nat) : Option Instr :=
  match decode 0 (tableEntry (tableBytes nbits w)) (tableBytes nbits w) with
  | .ok i => some i
  | .error _ => none

end Sys2Proof
end

