-- ==== Sys2Proof/Machine/State.lean ====
section
/-! DEFINITION. The state of the block as plain data (spec/10_state.md R20 to R38), the environment's
inputs that stand beside it (R7, R33, R190), and the state after reset (R260). -/

namespace Sys2Proof.Machine

/-- No operation of this block traps, faults or halts, and no access faults (R8, R70): the type has no
constructor (log 17). -/
inductive Fault where
deriving DecidableEq, Repr

/-- Who applies an operation (R7, R238), and the platform software that constructs the block (R262). -/
inductive Context where
  | sbusRx
  | console
  | foreground
  | platform
deriving DecidableEq, Repr

/-- Why the model refuses a stimulus. -/
inductive Refusal where
  /-- Raised by `exec` for an operation that has no meaning yet. Safe. No arm raises it. -/
  | notModelled (mnemonic : String)
  /-- Raised by a byte operation of the decoder that `POS` does not select: the spec gives it no
  effect there (R130, log 9). Safe. -/
  | notSelected
  /-- Raised by the step for an operation issued from a context that may not issue it (R238, log 10).
  Safe. -/
  | wrongContext (c : Context) (e : EntryPoint)
  /-- Raised by the step for two operations on one sub-block at once (R76, R77, R272, log 11). Safe. -/
  | overlap
  /-- Raised by the step for `RESET`: every state of a run comes after the one `RESET` there is, which is
  not offered as a step (R261, 93_implementation_defined table 2; log 14). Safe. -/
  | alreadyConstructed
  /-- Raised by the step for a call that is no operation (logs 16, 19). Safe. -/
  | badCall (e : DecodeError)
deriving DecidableEq, Repr

/-- The two serial ports (R12, R190). -/
inductive Uart where
  | rcInput
  | console
deriving DecidableEq, Repr

/-- An answer of `read_byte()` (R106, R190). -/
inductive ReadAnswer where
  | byte (v : Byte)
  | wouldBlock
  | error
deriving DecidableEq, Repr

/-- An answer of `write_byte(b)` (R106, R190). -/
inductive WriteAnswer where
  | ok
  | wouldBlock
  | error
deriving DecidableEq, Repr

/-- The answers one transceiver gives to the next operation's capability calls (R190, R191): free
inputs. One of each is enough, since an operation makes each call at most once (R196, R197, R226). -/
structure Answers where
  lineIdle : Bool
  transmitReady : Bool
  receiveReady : Bool
  read : ReadAnswer
  write : WriteAnswer
deriving DecidableEq, Repr

/-- One capability call as the environment saw it, with the answer it gave (R190). -/
inductive XcvrCall where
  | isLineIdle (u : Uart) (answer : Bool)
  | isTransmitReady (u : Uart) (answer : Bool)
  | isReceiveReady (u : Uart) (answer : Bool)
  | readByte (u : Uart) (answer : ReadAnswer)
  | writeByte (u : Uart) (b : Byte) (answer : WriteAnswer)
deriving DecidableEq, Repr

/-- One operation asked for by a context, with the answers the console transceiver will give during it
(`none`: the answers stand as they are). -/
structure Request where
  context : Context
  entry : EntryPoint
  bytes : List Byte
  answers : Option Answers
deriving DecidableEq, Repr

/-- One thing the environment presents to the block (R7, R231; R107). -/
inductive Stimulus where
  /-- A context issues one operation. -/
  | call (r : Request)
  /-- The SBUS receive handler is entered (R226 to R229). -/
  | enterSbus (a : Answers)
  /-- The idle branch of the SBUS receive handler, still to be done (R227, R228). -/
  | sbusIdleBranch
  /-- One byte of a `process_sequence` under way, still to be processed (R67, R171, log 13). Its caller
  was checked when it called, and holds the Serial UI until the last byte (R76, R171). -/
  | sequenceByte (b : Byte)
  /-- The console handler is entered (R230). -/
  | enterConsole (a : Answers)
  /-- `second` is asked for while `first` is in progress (R73, R76, R77, R78). -/
  | overlapping (first second : Request)
deriving DecidableEq, Repr

/-- An SbusFrame: sixteen channels and four flags (R21, R23). -/
structure SbusFrame where
  ch : Vector Channel 16
  ch17 : Bool
  ch18 : Bool
  frameLost : Bool
  failsafe : Bool
deriving DecidableEq, Repr

/-- All twenty fields 0. -/
def SbusFrame.zero : SbusFrame where
  ch := Vector.replicate 16 0
  ch17 := false
  ch18 := false
  frameLost := false
  failsafe := false

/-- What an operation returns to its caller (R25, R138, R139, R170, R196). -/
inductive Result where
  /-- The operation returns nothing. -/
  | nothing
  /-- `FRAME_VALID` of `process_char`. -/
  | frameValid (valid : Bool)
  /-- `ok` of `write`. -/
  | ok
  /-- `would_block` of `write`. -/
  | wouldBlock
  /-- `LAST_VALID` and the fields of `LAST`, of `SBUS.READ`. -/
  | lastFrame (valid : Bool) (f : SbusFrame)
  /-- The fields of `ACC`, of `SBUS.READACC`. -/
  | accFrame (f : SbusFrame)
  /-- The text of `content()`. -/
  | text (bytes : List Byte)
deriving DecidableEq, Repr

/-- A byte store: (index, byte) pairs, indices strictly rising, no pair whose byte is what an unlisted
index reads as (`Memory.unlisted`, log 7). -/
abbrev Memory := List Host.Cell

/-- The SBUS decoder's state (R20 to R24). -/
structure Decoder where
  /-- `POS`. -/
  pos : Position
  /-- `ACC`. -/
  acc : SbusFrame
  /-- `LAST`. -/
  last : SbusFrame
  /-- `LAST_VALID`. -/
  lastValid : Bool
deriving DecidableEq, Repr

/-- The line buffer's state (R26). -/
structure LineBuffer where
  /-- `BUF`. -/
  buf : Memory
  /-- `LEN`. -/
  len : Nat
  /-- `CUR`. -/
  cur : Nat
deriving DecidableEq, Repr

/-- The whole state: the block's (`dec`, `line`, `queue`), its parameters, and the model's own fields
for the environment (logs 1, 4, 5, 8). -/
structure State where
  /-- The implementation parameters (R6). -/
  params : Params
  /-- The SBUS decoder. -/
  dec : Decoder
  /-- The line buffer of the Serial UI. -/
  line : LineBuffer
  /-- `Q`, the outbound queue, oldest byte first (R30). -/
  queue : List Byte
  /-- What the RC-input transceiver answers next. -/
  rcInput : Answers
  /-- What the console transceiver answers next. -/
  console : Answers
  /-- The stimuli still to come, first one first. -/
  pending : List Stimulus
  /-- What the operation just done returned. -/
  result : Result
  /-- The capability calls the operation just done made, in order. -/
  calls : List XcvrCall
deriving DecidableEq, Repr

/-- The decoder after reset (R38, R260). -/
def Decoder.reset : Decoder where
  pos := 0
  acc := SbusFrame.zero
  last := SbusFrame.zero
  lastValid := false

/-- The line buffer after reset (R38, R260). -/
def LineBuffer.reset : LineBuffer where
  buf := []
  len := 0
  cur := 0

/-- Nothing ready, nothing readable or writable (DESIGN CHOICE, log 8). -/
def Answers.quiet : Answers where
  lineIdle := false
  transmitReady := false
  receiveReady := false
  read := .wouldBlock
  write := .wouldBlock

/-- The state after reset of a block built with the parameters `p` (R38, R260). -/
def State.resetWith (p : Params) : State where
  params := p
  dec := Decoder.reset
  line := LineBuffer.reset
  queue := []
  rcInput := Answers.quiet
  console := Answers.quiet
  pending := []
  result := .nothing
  calls := []

/-- The state after reset (R38, R260). -/
def State.reset : State :=
  State.resetWith Config.params

/-! One function per update of a state field; the meanings use these and nothing else. -/

def State.withDec (s : State) (d : Decoder) : State := { s with dec := d }
def State.withLine (s : State) (l : LineBuffer) : State := { s with line := l }
def State.withQueue (s : State) (q : List Byte) : State := { s with queue := q }
def State.withRcInput (s : State) (a : Answers) : State := { s with rcInput := a }
def State.withConsole (s : State) (a : Answers) : State := { s with console := a }
def State.withPending (s : State) (p : List Stimulus) : State := { s with pending := p }

/-- The operation is done: it returned `r` and made the calls `cs`. -/
def State.finish (s : State) (r : Result) (cs : List XcvrCall) : State :=
  { s with result := r, calls := cs }

end Sys2Proof.Machine
end

