-- ==== Sys2Proof/Machine/Flags.lean ====
section
/-! DEFINITION. The flags: the four frame flags of frame byte 23 (spec/30_encoding.md R96,
spec/10_state.md R23). The operation results are outputs, not flags of the state (R25). -/

namespace Sys2Proof.Machine

/-- The four flags from a flags byte: bit 0 ch17, bit 1 ch18, bit 2 frame-lost, bit 3 failsafe; bits
7 to 4 are ignored (R96, R134). -/
def SbusFrame.withFlags (f : SbusFrame) (b : Byte) : SbusFrame :=
  { f with
    ch17 := b.getLsbD 0
    ch18 := b.getLsbD 1
    frameLost := b.getLsbD 2
    failsafe := b.getLsbD 3 }

end Sys2Proof.Machine
end

