-- ==== Sys2Proof/Machine/Operands.lean ====
section
/-! DEFINITION. The operand forms: where the bits of a data byte go in the channel registers
(spec/40_sbus_decoder.md R133, spec/30_encoding.md R93, R94), and the byte a read answer delivers. -/

namespace Sys2Proof.Machine

/-- `bitIndex = (p - 1) * 8` of frame byte `p` (R133). -/
def bitIndex (p : Nat) : Nat :=
  (p - 1) * 8

/-- `k = bitIndex div 11`: the channel that bit 0 of frame byte `p` belongs to (R133). -/
def channelIndex (p : Nat) : Nat :=
  bitIndex p / 11

/-- `o = bitIndex mod 11`: the bit of that channel where bit 0 of frame byte `p` lands (R133, C1). -/
def channelOffset (p : Nat) : Nat :=
  bitIndex p % 11

/-- `w = zext_19(b) << o` (R133). -/
def shiftedByte (b : Byte) (o : Nat) : BitVec 19 :=
  b.setWidth 19 <<< o

/-- `w[10:0]`: the bits for channel `k` (R133). -/
def lowPart (b : Byte) (o : Nat) : Channel :=
  (shiftedByte b o).extractLsb' 0 11

/-- `zext_11(w[18:11])`: the bits carried into channel `k+1` (R133). -/
def highPart (b : Byte) (o : Nat) : Channel :=
  ((shiftedByte b o).extractLsb' 11 8).setWidth 11

/-- `CH[k]` (R11, R21). -/
def SbusFrame.channel (f : SbusFrame) (k : Nat) : Channel :=
  f.ch[k]?.getD 0

/-- `CH[k] <- CH[k] | v` (R133). -/
def SbusFrame.orChannel (f : SbusFrame) (k : Nat) (v : Channel) : SbusFrame :=
  { f with ch := f.ch.setIfInBounds k (f.channel k ||| v) }

/-- Frame byte `p`, with value `b`, ORed into the channel registers (R133): the low part into channel
`k`, and where `o >= 4` the carry into channel `k+1`. -/
def SbusFrame.orByte (f : SbusFrame) (p : Nat) (b : Byte) : SbusFrame :=
  let k := channelIndex p
  let o := channelOffset p
  let g := f.orChannel k (lowPart b o)
  if 4 ≤ o then g.orChannel (k + 1) (highPart b o) else g

/-- The byte a read answer delivers, if it delivers one (R106, R194). -/
def ReadAnswer.delivered : ReadAnswer → Option Byte
  | .byte v => some v
  | .wouldBlock => none
  | .error => none

end Sys2Proof.Machine
end

