-- ==== Sys2Proof/Machine/Ops.lean ====
section
/-! DEFINITION. The named operations over the block's stores, over the decoder, the line buffer and
the queue, and handler entry, which is this block's counterpart of taking an exception. -/

namespace Sys2Proof.Machine

/-! ## The byte store (R11: `MemRead`, `MemWrite`) -/

/-- What an unlisted cell reads as (DESIGN CHOICE, log 7). No operation of a run reads one (R29). -/
def Memory.unlisted : Byte := 0

/-- One byte. -/
def Memory.read : Memory → Nat → Byte
  | [], _ => Memory.unlisted
  | (k, v) :: rest, a => if k = a then v else Memory.read rest a

/-- The list `(a, v) :: m`, less the entry where `v` is what an unlisted cell reads as. -/
def Memory.consCell (a : Nat) (v : Byte) (m : Memory) : Memory :=
  if v = Memory.unlisted then m else (a, v) :: m

/-- Store one byte, keeping the canonical form. -/
def Memory.write : Memory → Nat → Byte → Memory
  | [], a, v => Memory.consCell a v []
  | (k, w) :: rest, a, v =>
    if a < k then Memory.consCell a v ((k, w) :: rest)
    else if a = k then Memory.consCell a v rest
    else (k, w) :: Memory.write rest a v

/-- `MemRead(i, n)` (R11). -/
def Memory.readBlock (m : Memory) (i n : Nat) : List Byte :=
  (List.range n).map fun j => Memory.read m (i + j)

/-- `MemWrite(i, |v|, v)` (R11). -/
def Memory.writeBlock (m : Memory) (i : Nat) : List Byte → Memory
  | [] => m
  | v :: vs => Memory.writeBlock (Memory.write m i v) (i + 1) vs

/-- The canonical form: indices strictly rising, no entry equal to what an unlisted index reads as. -/
def Memory.wf : Memory → Bool
  | [] => true
  | (k, v) :: rest => v != Memory.unlisted && rest.all (fun c => decide (k < c.1)) && Memory.wf rest

/-! ## The decoder's registers -/

/-- The accumulator cleared and position 1 (R132). -/
def Decoder.sync (d : Decoder) : Decoder :=
  { d with acc := SbusFrame.zero, pos := 1 }

/-- Byte `b` consumed as data byte `POS` (R133). -/
def Decoder.channelByte (d : Decoder) (b : Byte) : Decoder :=
  { d with acc := d.acc.orByte d.pos.toNat b, pos := d.pos + 1 }

/-- Byte `b` consumed as the flags byte (R134). -/
def Decoder.flagsByte (d : Decoder) (b : Byte) : Decoder :=
  { d with acc := d.acc.withFlags b, pos := 24 }

/-- The completed frame latched (R135). -/
def Decoder.complete (d : Decoder) : Decoder :=
  { d with last := d.acc, lastValid := true, pos := 0 }

/-- `POS <- 0` and nothing else (R136, R137). -/
def Decoder.awaitSync (d : Decoder) : Decoder :=
  { d with pos := 0 }

/-! ## The line buffer (R161 to R170) -/

/-- `CUR <- 0` (R161). -/
def LineBuffer.startOfLine (l : LineBuffer) : LineBuffer :=
  { l with cur := 0 }

/-- `if CUR > 0 then CUR <- CUR - 1` (R162). -/
def LineBuffer.left (l : LineBuffer) : LineBuffer :=
  if 0 < l.cur then { l with cur := l.cur - 1 } else l

/-- `CUR <- LEN` (R163). -/
def LineBuffer.endOfLine (l : LineBuffer) : LineBuffer :=
  { l with cur := l.len }

/-- `if CUR < LEN then CUR <- CUR + 1` (R164). -/
def LineBuffer.right (l : LineBuffer) : LineBuffer :=
  if l.cur < l.len then { l with cur := l.cur + 1 } else l

/-- Remove the byte before the cursor (R165). -/
def LineBuffer.backspace (l : LineBuffer) : LineBuffer :=
  if 0 < l.cur then
    { buf := Memory.writeBlock l.buf (l.cur - 1) (Memory.readBlock l.buf l.cur (l.len - l.cur))
      cur := l.cur - 1
      len := l.len - 1 }
  else l

/-- `LEN <- CUR` (R166). -/
def LineBuffer.killToEnd (l : LineBuffer) : LineBuffer :=
  { l with len := l.cur }

/-- Remove the byte at the cursor (R167). -/
def LineBuffer.deleteForward (l : LineBuffer) : LineBuffer :=
  if l.cur < l.len then
    { l with
      buf := Memory.writeBlock l.buf l.cur
        (Memory.readBlock l.buf (l.cur + 1) (l.len - l.cur - 1))
      len := l.len - 1 }
  else l

/-- Insert `b` at the cursor of a buffer of capacity `n`; a silent no-op where the buffer is full
(R168). -/
def LineBuffer.insert (n : Nat) (b : Byte) (l : LineBuffer) : LineBuffer :=
  if l.len < n then
    { buf := Memory.write
        (Memory.writeBlock l.buf (l.cur + 1) (Memory.readBlock l.buf l.cur (l.len - l.cur)))
        l.cur b
      cur := l.cur + 1
      len := l.len + 1 }
  else l

/-- `MemRead(0, LEN)` (R170). -/
def LineBuffer.content (l : LineBuffer) : List Byte :=
  Memory.readBlock l.buf 0 l.len

/-- `process(b)` on a buffer of capacity `n` (R160). -/
def LineBuffer.process (n : Nat) (b : Byte) (l : LineBuffer) : LineBuffer :=
  if b = 0x01 then l.startOfLine
  else if b = 0x02 then l.left
  else if b = 0x05 then l.endOfLine
  else if b = 0x06 then l.right
  else if b = 0x08 then l.backspace
  else if b = 0x0B then l.killToEnd
  else if b = 0x7F then l.deleteForward
  else if b.getLsbD 7 then l
  else l.insert n b

/-- The bytes `bs` of a `process_sequence` put before all later stimuli, to go out one by one (R171). -/
def State.withSequence (bs : List Byte) (s : State) : State :=
  s.withPending (bs.map .sequenceByte ++ s.pending)

/-! ## The outbound queue (R192, R193) -/

/-- `Q.ENQ(b)` on a queue of capacity `m`; `none` where it fails (R192). -/
def enqueue (m : Nat) (q : List Byte) (b : Byte) : Option (List Byte) :=
  if q.length < m then some (q ++ [b]) else none

/-- `Q.DEQ()`: the oldest byte and the rest; `none` where the queue is empty (R193). -/
def dequeue (q : List Byte) : Option (Byte × List Byte) :=
  match q with
  | [] => none
  | v :: rest => some (v, rest)

/-! ## The two branches of `on_event` (R197) -/

/-- The line buffer after the receive branch: one byte processed if one is delivered (R194, R197). -/
def State.receivedLine (s : State) : LineBuffer :=
  if s.console.receiveReady then
    match s.console.read.delivered with
    | some v => s.line.process s.params.lbCapacity v
    | none => s.line
  else s.line

/-- The capability calls of the receive branch (R197). -/
def State.receiveCalls (s : State) : List XcvrCall :=
  if s.console.receiveReady then
    [.isReceiveReady .console true, .readByte .console s.console.read]
  else [.isReceiveReady .console false]

/-- The queue after the transmit branch: one byte fewer if the transmitter is ready (R197). The answer
of the write is not looked at (R194). -/
def State.drainedQueue (s : State) : List Byte :=
  if s.console.transmitReady then
    match dequeue s.queue with
    | some (_, rest) => rest
    | none => s.queue
  else s.queue

/-- The capability calls of the transmit branch (R197). -/
def State.transmitCalls (s : State) : List XcvrCall :=
  if s.console.transmitReady then
    match dequeue s.queue with
    | some (v, _) => [.isTransmitReady .console true, .writeByte .console v s.console.write]
    | none => [.isTransmitReady .console true]
  else [.isTransmitReady .console false]

/-! ## Reset (R260) -/

/-- Every element of the block at its reset value. The parameters, which no operation changes, and the
environment's inputs stay (log 14). -/
def State.construct (s : State) : State :=
  ((s.withDec Decoder.reset).withLine LineBuffer.reset).withQueue []

/-! ## Handler entry (R226 to R230, R235): entering a handler saves and changes nothing in the block;
it makes the handler's status calls and puts the operations it applies before all later stimuli. -/

/-- `process_char(v)` issued by the SBUS receive handler. -/
def charRequest (v : Byte) : Request where
  context := .sbusRx
  entry := .processChar
  bytes := [v]
  answers := none

/-- `process_idle()` issued by the SBUS receive handler. -/
def idleRequest : Request where
  context := .sbusRx
  entry := .processIdle
  bytes := []
  answers := none

/-- `on_event()` issued by the console handler while the console transceiver answers `a`. -/
def eventRequest (a : Answers) : Request where
  context := .console
  entry := .onEvent
  bytes := []
  answers := some a

/-- The operations that the receive branch of the SBUS handler applies (R226, R229). -/
def receivedChars (a : Answers) : List Stimulus :=
  if a.receiveReady then
    match a.read.delivered with
    | some v => [.call (charRequest v)]
    | none => []
  else []

/-- The capability calls of the receive branch of the SBUS handler (R226). -/
def sbusReceiveCalls (a : Answers) : List XcvrCall :=
  if a.receiveReady then [.isReceiveReady .rcInput true, .readByte .rcInput a.read]
  else [.isReceiveReady .rcInput false]

/-- The SBUS receive handler is entered, `rest` being the later stimuli: the receive branch first, the
idle branch second (R226, R228). -/
def enterSbusHandler (a : Answers) (rest : List Stimulus) (s : State) : State :=
  ((s.withRcInput a).withPending (receivedChars a ++ .sbusIdleBranch :: rest)).finish .nothing
    (sbusReceiveCalls a)

/-- The idle branch of the SBUS receive handler (R227). -/
def sbusIdleBranch (rest : List Stimulus) (s : State) : State :=
  (s.withPending (if s.rcInput.lineIdle then .call idleRequest :: rest else rest)).finish .nothing
    [.isLineIdle .rcInput s.rcInput.lineIdle]

/-- The console handler is entered: it applies `SUI.EVENT` exactly once (R230). -/
def enterConsoleHandler (a : Answers) (rest : List Stimulus) (s : State) : State :=
  (s.withPending (.call (eventRequest a) :: rest)).finish .nothing []

end Sys2Proof.Machine
end

