-- ==== Sys2Proof/Machine/Contexts.lean ====
section
/-! DEFINITION. The access discipline: which context may issue which operation
(spec/60_exceptions.md R238), which operations may not overlap (spec/20_memory.md R76, R77), and the
priorities that order two operations that may (R78, R232, R236). -/

namespace Sys2Proof.Machine

/-- The table of R238, the operations of the line buffer going with those of the Serial UI that pass
through to it (R35, R198, R199, log 10); `RESET` is the platform's (R262, log 10),
and no run offers it (R261, `runOperation`). -/
def Context.mayIssue (c : Context) : EntryPoint → Bool
  | .processChar => c == .sbusRx
  | .processIdle => c == .sbusRx
  | .readAcc => c == .sbusRx
  | .readLast => c == .foreground
  | .process => c == .console || c == .foreground
  | .content => c == .console || c == .foreground
  | .processSequence => c == .console || c == .foreground
  | .write => c == .console || c == .foreground
  | .onEvent => c == .console
  | .uiProcess => c == .console || c == .foreground
  | .uiContent => c == .console || c == .foreground
  | .construct => c == .platform

/-- What an operation works on, for the rule of one context at a time. -/
inductive SubBlock where
  /-- `POS` and `ACC` (R77). -/
  | decoder
  /-- `LAST` as its reader sees it, guarded by the priority ceiling (R78). -/
  | latch
  /-- The line buffer and the queue (R76). -/
  | serialUi
  /-- Everything, for `RESET` (R260, R261). -/
  | whole
deriving DecidableEq, Repr

/-- The sub-block of an operation (R9, R35). -/
def subBlockOf : EntryPoint → SubBlock
  | .processChar => .decoder
  | .processIdle => .decoder
  | .readAcc => .decoder
  | .readLast => .latch
  | .process => .serialUi
  | .content => .serialUi
  | .processSequence => .serialUi
  | .write => .serialUi
  | .onEvent => .serialUi
  | .uiProcess => .serialUi
  | .uiContent => .serialUi
  | .construct => .whole

/-- Two operations that must not overlap in time (R76, R77, R272). -/
def conflict (a b : EntryPoint) : Bool :=
  subBlockOf a == .whole || subBlockOf b == .whole
    || subBlockOf a == subBlockOf b

/-- The priority a context runs at (R6, R238). The platform runs before any interrupt (R262). -/
def Context.priority (p : Params) : Context → Nat
  | .sbusRx => p.prioSbusRx
  | .console => p.prioConsole
  | .foreground => p.prioConsumer
  | .platform => 0

/-- The priority an operation runs at: `SBUS.READ` at the ceiling of `LAST`, which is `PRIO_SBUS_RX`
(R78), every other operation at its context's. -/
def Request.effectivePriority (p : Params) (r : Request) : Nat :=
  if r.entry = .readLast then p.prioSbusRx else r.context.priority p

/-- `second` is asked for while `first` runs: it preempts `first` if its context's priority is strictly
higher than the one `first` runs at, else it waits until `first` is done (R78, R236, log 11). -/
def overlapOrder (p : Params) (first second : Request) : List Stimulus :=
  if Request.effectivePriority p first < second.context.priority p then [.call second, .call first]
  else [.call first, .call second]

/-- Two operations at once: refused where they may not overlap (R76, R77), else put one after the
other, which no one can tell from an interleaving (R72, R73). -/
def scheduleOverlap (first second : Request) (rest : List Stimulus) (s : State) :
    Host.Outcome State Fault Refusal :=
  if conflict first.entry second.entry then .refused .overlap
  else .next ((s.withPending (overlapOrder s.params first second ++ rest)).finish .nothing [])

end Sys2Proof.Machine
end

