-- ==== Sys2Proof/Machine/LineEdit.lean ====
section
/-! DEFINITION. The meanings of the editable line buffer's operations (spec/41_line_buffer.md R161 to
R171). None returns a status. -/

namespace Sys2Proof.Machine

/-- `LB.SOL` (R161). -/
def execLbSol (s : State) : Host.Outcome State Fault Refusal :=
  .next ((s.withLine s.line.startOfLine).finish .nothing [])

/-- `LB.LEFT` (R162). -/
def execLbLeft (s : State) : Host.Outcome State Fault Refusal :=
  .next ((s.withLine s.line.left).finish .nothing [])

/-- `LB.EOL` (R163). -/
def execLbEol (s : State) : Host.Outcome State Fault Refusal :=
  .next ((s.withLine s.line.endOfLine).finish .nothing [])

/-- `LB.RIGHT` (R164). -/
def execLbRight (s : State) : Host.Outcome State Fault Refusal :=
  .next ((s.withLine s.line.right).finish .nothing [])

/-- `LB.BS` (R165). -/
def execLbBs (s : State) : Host.Outcome State Fault Refusal :=
  .next ((s.withLine s.line.backspace).finish .nothing [])

/-- `LB.KILL` (R166). -/
def execLbKill (s : State) : Host.Outcome State Fault Refusal :=
  .next ((s.withLine s.line.killToEnd).finish .nothing [])

/-- `LB.DEL` (R167). -/
def execLbDel (s : State) : Host.Outcome State Fault Refusal :=
  .next ((s.withLine s.line.deleteForward).finish .nothing [])

/-- `LB.INS` (R168). -/
def execLbIns (b : Byte) (s : State) : Host.Outcome State Fault Refusal :=
  .next ((s.withLine (s.line.insert s.params.lbCapacity b)).finish .nothing [])

/-- `LB.DROP` (R169): no state is written. -/
def execLbDrop (_b : Byte) (s : State) : Host.Outcome State Fault Refusal :=
  .next (s.finish .nothing [])

/-- `LB.CONTENT` (R170). -/
def execLbContent (s : State) : Host.Outcome State Fault Refusal :=
  .next (s.finish (.text s.line.content) [])

/-- `LB.SEQ` (R171): a burst of single-byte operations with no step of its own (R67, D28). This step is
that of the first byte; each byte after it takes its own step (log 13). -/
def execLbSeq (bs : List Byte) (s : State) : Host.Outcome State Fault Refusal :=
  match bs with
  | [] => .next (s.finish .nothing [])
  | b :: rest =>
    .next (((s.withLine (s.line.process s.params.lbCapacity b)).withSequence rest).finish .nothing [])

end Sys2Proof.Machine
end

