-- ==== Sys2Proof/Machine/Reset.lean ====
section
/-! DEFINITION. The meaning of `RESET` (spec/70_reset_and_hazards.md R260, R261). -/

namespace Sys2Proof.Machine

/-- `RESET` (R260): the construction before a run, which no step of a run performs (R261, log 14). -/
def execReset (s : State) : Host.Outcome State Fault Refusal :=
  .next (s.construct.finish .nothing [])

end Sys2Proof.Machine
end

