-- ==== Sys2Proof/Machine/Sbus.lean ====
section
/-! DEFINITION. The meanings of the SBUS frame decoder's operations (spec/40_sbus_decoder.md R131 to
R139). A byte operation at a position that does not select it is refused (log 9). -/

namespace Sys2Proof.Machine

/-- `SBUS.SYNC` (R132). -/
def execSbusSync (s : State) : Host.Outcome State Fault Refusal :=
  if s.dec.pos = 0 then .next ((s.withDec s.dec.sync).finish (.frameValid false) [])
  else .refused .notSelected

/-- `SBUS.SKIP` (R131): no state is written. -/
def execSbusSkip (_b : Byte) (s : State) : Host.Outcome State Fault Refusal :=
  if s.dec.pos = 0 then .next (s.finish (.frameValid false) [])
  else .refused .notSelected

/-- `SBUS.CHAN` (R133). -/
def execSbusChan (b : Byte) (s : State) : Host.Outcome State Fault Refusal :=
  if 1 ≤ s.dec.pos ∧ s.dec.pos ≤ 22 then
    .next ((s.withDec (s.dec.channelByte b)).finish (.frameValid false) [])
  else .refused .notSelected

/-- `SBUS.FLAGS` (R134). -/
def execSbusFlags (b : Byte) (s : State) : Host.Outcome State Fault Refusal :=
  if s.dec.pos = 23 then .next ((s.withDec (s.dec.flagsByte b)).finish (.frameValid false) [])
  else .refused .notSelected

/-- `SBUS.TERM.OK` (R135). -/
def execSbusTermOk (s : State) : Host.Outcome State Fault Refusal :=
  if s.dec.pos = 24 then .next ((s.withDec s.dec.complete).finish (.frameValid true) [])
  else .refused .notSelected

/-- `SBUS.TERM.BAD` (R136). -/
def execSbusTermBad (_b : Byte) (s : State) : Host.Outcome State Fault Refusal :=
  if s.dec.pos = 24 then .next ((s.withDec s.dec.awaitSync).finish (.frameValid false) [])
  else .refused .notSelected

/-- `SBUS.IDLE` (R137). -/
def execSbusIdle (s : State) : Host.Outcome State Fault Refusal :=
  .next ((s.withDec s.dec.awaitSync).finish .nothing [])

/-- `SBUS.READ` (R138). -/
def execSbusRead (s : State) : Host.Outcome State Fault Refusal :=
  .next (s.finish (.lastFrame s.dec.lastValid s.dec.last) [])

/-- `SBUS.READACC` (R139). -/
def execSbusReadacc (s : State) : Host.Outcome State Fault Refusal :=
  .next (s.finish (.accFrame s.dec.acc) [])

end Sys2Proof.Machine
end

