-- ==== Sys2Proof/Machine/SerialUi.lean ====
section
/-! DEFINITION. The meanings of the Serial UI's operations (spec/42_serial_ui.md R196 to R199). -/

namespace Sys2Proof.Machine

/-- `SUI.WRITE` (R196). -/
def execSuiWrite (b : Byte) (s : State) : Host.Outcome State Fault Refusal :=
  if s.console.transmitReady then
    .next (s.finish .ok
      [.isTransmitReady .console true, .writeByte .console b s.console.write])
  else
    match enqueue s.params.oqCapacity s.queue b with
    | some q => .next ((s.withQueue q).finish .ok [.isTransmitReady .console false])
    | none => .next (s.finish .wouldBlock [.isTransmitReady .console false])

/-- `SUI.EVENT` (R197): the receive branch, then the transmit branch. -/
def execSuiEvent (s : State) : Host.Outcome State Fault Refusal :=
  .next (((s.withLine s.receivedLine).withQueue s.drainedQueue).finish .nothing
    (s.receiveCalls ++ s.transmitCalls))

/-- `SUI.PROCESS` (R198). -/
def execSuiProcess (b : Byte) (s : State) : Host.Outcome State Fault Refusal :=
  .next ((s.withLine (s.line.process s.params.lbCapacity b)).finish .nothing [])

/-- `SUI.CONTENT` (R199). -/
def execSuiContent (s : State) : Host.Outcome State Fault Refusal :=
  .next (s.finish (.text s.line.content) [])

end Sys2Proof.Machine
end

