-- ==== Sys2Proof/Machine/Dispatch.lean ====
section
/-! DEFINITION. One arm per operation: each calls its own meaning (spec/00_scope.md R9). -/

namespace Sys2Proof.Machine

def exec (i : Instr) (s : State) : Host.Outcome State Fault Refusal :=
  match i with
  | .sbusSync => Sys2Proof.Machine.execSbusSync s
  | .sbusSkip b => Sys2Proof.Machine.execSbusSkip b s
  | .sbusChan b => Sys2Proof.Machine.execSbusChan b s
  | .sbusFlags b => Sys2Proof.Machine.execSbusFlags b s
  | .sbusTermOk => Sys2Proof.Machine.execSbusTermOk s
  | .sbusTermBad b => Sys2Proof.Machine.execSbusTermBad b s
  | .lbSol => Sys2Proof.Machine.execLbSol s
  | .lbLeft => Sys2Proof.Machine.execLbLeft s
  | .lbEol => Sys2Proof.Machine.execLbEol s
  | .lbRight => Sys2Proof.Machine.execLbRight s
  | .lbBs => Sys2Proof.Machine.execLbBs s
  | .lbKill => Sys2Proof.Machine.execLbKill s
  | .lbDel => Sys2Proof.Machine.execLbDel s
  | .lbDrop b => Sys2Proof.Machine.execLbDrop b s
  | .lbIns b => Sys2Proof.Machine.execLbIns b s
  | .sbusIdle => Sys2Proof.Machine.execSbusIdle s
  | .sbusRead => Sys2Proof.Machine.execSbusRead s
  | .sbusReadacc => Sys2Proof.Machine.execSbusReadacc s
  | .lbContent => Sys2Proof.Machine.execLbContent s
  | .lbSeq bs => Sys2Proof.Machine.execLbSeq bs s
  | .suiWrite b => Sys2Proof.Machine.execSuiWrite b s
  | .suiEvent => Sys2Proof.Machine.execSuiEvent s
  | .suiProcess b => Sys2Proof.Machine.execSuiProcess b s
  | .suiContent => Sys2Proof.Machine.execSuiContent s
  | .reset => Sys2Proof.Machine.execReset s

end Sys2Proof.Machine
end

