-- ==== Sys2Proof/Machine/Fetch.lean ====
section
/-! DEFINITION. From a request to the operation it asks for: the context check, the decode under the
current `POS`, and the operation (spec/20_memory.md R80, spec/60_exceptions.md R238). -/

namespace Sys2Proof.Machine

/-- The console transceiver's answers during an operation (R191): the request's, where it gives any. -/
def State.withAnswers (s : State) : Option Answers → State
  | some a => s.withConsole a
  | none => s

/-- The state in which a request's operation runs: the request taken off, its answers in place. -/
def State.load (s : State) (r : Request) (rest : List Stimulus) : State :=
  (s.withPending rest).withAnswers r.answers

/-- One operation in a run. `RESET` is none: it happens once, before any other operation, and a run starts
from the state it leaves (R261, log 14). -/
def runOperation (i : Instr) (s : State) : Host.Outcome State Fault Refusal :=
  if i = .reset then .refused .alreadyConstructed else exec i s

/-- One operation issued by a context: the step of R5. -/
def issue (r : Request) (rest : List Stimulus) (s : State) : Host.Outcome State Fault Refusal :=
  if r.context.mayIssue r.entry then
    match decode s.dec.pos r.entry r.bytes with
    | .ok i => runOperation i (s.load r rest)
    | .error e => .refused (.badCall e)
  else .refused (.wrongContext r.context r.entry)

/-- The next byte of a `process_sequence` under way: the operation that `process(b)` selects (R160,
R171). -/
def continueSequence (b : Byte) (rest : List Stimulus) (s : State) :
    Host.Outcome State Fault Refusal :=
  exec (decodeConsole b) (s.withPending rest)

/-- The request that stands for a bare table word (log 6): on the stream `tableEntry` names, from a
context that may issue it. -/
def wordRequest (nbits w : Nat) : Request where
  context := if tableEntry (tableBytes nbits w) = .processChar then .sbusRx else .console
  entry := tableEntry (tableBytes nbits w)
  bytes := tableBytes nbits w
  answers := none

/-- The decoder where a bare table word is read: at position 0 for a byte of the SBUS stream, as
`decodeTableWord` reads it (log 6). -/
def wordDecoder (nbits w : Nat) (d : Decoder) : Decoder :=
  if tableEntry (tableBytes nbits w) = .processChar then d.awaitSync else d

/-- A bare table word placed as the next stimulus. -/
def placeWord (nbits w : Nat) (s : State) : State :=
  (s.withDec (wordDecoder nbits w s.dec)).withPending (.call (wordRequest nbits w) :: s.pending)

end Sys2Proof.Machine
end

