-- ==== Sys2Proof/Machine/Step.lean ====
section
/-! DEFINITION. One step of the machine: the next stimulus of the environment takes effect
(spec/00_scope.md R5, R7). With no stimulus the block is passive (spec/60_exceptions.md R243, log 4). -/

namespace Sys2Proof.Machine

/-- The step function. -/
def step (s : State) : Host.Outcome State Fault Refusal :=
  match s.pending with
  | [] => .next s
  | .call r :: rest => issue r rest s
  | .enterSbus a :: rest => .next (enterSbusHandler a rest s)
  | .sbusIdleBranch :: rest => .next (sbusIdleBranch rest s)
  | .sequenceByte b :: rest => continueSequence b rest s
  | .enterConsole a :: rest => .next (enterConsoleHandler a rest s)
  | .overlapping first second :: rest => scheduleOverlap first second rest s

/-- The state with a bare table word placed where the step takes its next stimulus (log 6). -/
def State.withFetchWord (s : State) (nbits w : Nat) : State :=
  placeWord nbits w s

end Sys2Proof.Machine
end

