-- ==== Sys2Proof/Safety.lean ====
section
/-! DEFINITION. The terms in which claims about the machine are stated: the invariants of the block
(spec/10_state.md R27, R28, R37), what an operation leaves alone, sequences of stimuli with what they
report, and the frame as a transmitter packs it (spec/30_encoding.md R93, R95, R109). -/

namespace Sys2Proof.Machine

/-! ## Invariants -/

/-- Bit `n` of the 176-bit stream held in a frame's channels: bit `n mod 11` of channel `n div 11`
(R93). -/
def SbusFrame.streamBit (f : SbusFrame) (n : Nat) : Bool :=
  (f.channel (n / 11)).getLsbD (n % 11)

/-- The four flags are 0. -/
abbrev SbusFrame.FlagsClear (f : SbusFrame) : Prop :=
  f.ch17 = false ∧ f.ch18 = false ∧ f.frameLost = false ∧ f.failsafe = false

/-- R37 (c): at position `p` from 1 to 22 every accumulator bit of stream index `8*(p-1)` or more is 0,
and from 1 to 23 the accumulator's flags are 0. -/
abbrev Decoder.TailClear (d : Decoder) : Prop :=
  (1 ≤ d.pos.toNat → d.pos.toNat ≤ 22 →
    ∀ n < 176, 8 * (d.pos.toNat - 1) ≤ n → d.acc.streamBit n = false) ∧
  (1 ≤ d.pos.toNat → d.pos.toNat ≤ 23 → d.acc.FlagsClear)

/-- The decoder invariants of R37. (b), the width of a channel, is in its type. -/
abbrev Decoder.Inv (d : Decoder) : Prop :=
  d.pos.toNat ≤ 24 ∧ d.TailClear ∧ (d.lastValid = false → d.last = SbusFrame.zero)

/-- The line buffer's invariants for capacity `n`: R27, R28, the canonical form of its store, and no
cell outside `0..n-1` (R83, R172). -/
abbrev LineBuffer.Inv (n : Nat) (l : LineBuffer) : Prop :=
  l.cur ≤ l.len ∧ l.len ≤ n ∧ (∀ i < l.len, (Memory.read l.buf i).getLsbD 7 = false) ∧
  Memory.wf l.buf = true ∧ (∀ c ∈ l.buf, c.1 < n)

/-- The invariant of the block: the parameters legal (R6), the decoder's (R37), the line buffer's (R27,
R28) and the queue within its capacity (R30, R200). It says nothing of the environment's inputs. -/
abbrev State.Inv (s : State) : Prop :=
  s.params.Legal ∧ s.dec.Inv ∧ s.line.Inv s.params.lbCapacity ∧ s.queue.length ≤ s.params.oqCapacity

/-! ## What an operation leaves alone -/

/-- The parameters and the answers the transceivers give next are as they were. -/
abbrev SameAnswers (s t : State) : Prop :=
  t.params = s.params ∧ t.rcInput = s.rcInput ∧ t.console = s.console

/-- The parameters and the environment's inputs are as they were. -/
abbrev SameInputs (s t : State) : Prop :=
  t.params = s.params ∧ t.rcInput = s.rcInput ∧ t.console = s.console ∧ t.pending = s.pending

/-- Everything but the decoder and the outputs is as it was. -/
abbrev SameButDecoder (s t : State) : Prop :=
  t.line = s.line ∧ t.queue = s.queue ∧ SameInputs s t

/-- Everything but the line buffer and the outputs is as it was. -/
abbrev SameButLine (s t : State) : Prop :=
  t.dec = s.dec ∧ t.queue = s.queue ∧ SameInputs s t

/-- Everything but the line buffer, the queue and the outputs is as it was. -/
abbrev SameButSerialUi (s t : State) : Prop :=
  t.dec = s.dec ∧ SameInputs s t

/-- Everything but the outputs is as it was. -/
abbrev SameButOutputs (s t : State) : Prop :=
  t.dec = s.dec ∧ t.line = s.line ∧ t.queue = s.queue ∧ SameInputs s t

/-- The latch of a decoder, `LAST` and `LAST_VALID`, is as it was. -/
abbrev SameLatch (d e : Decoder) : Prop :=
  e.last = d.last ∧ e.lastValid = d.lastValid

/-- The operation returned nothing and made no capability call. -/
abbrev ReturnsNothing (t : State) : Prop :=
  t.result = .nothing ∧ t.calls = []

/-- The parameters, the decoder, the line buffer and the queue are as they were. -/
abbrev SameBlock (s t : State) : Prop :=
  t.params = s.params ∧ t.dec = s.dec ∧ t.line = s.line ∧ t.queue = s.queue

/-! ## Sequences of steps and of stimuli -/

/-- What the bytes of a sequence do to a line of capacity `n`: `process(b1); ...; process(bn)`, each on
the state the previous left (R171). -/
def LineBuffer.processAll (n : Nat) (bs : List Byte) (l : LineBuffer) : LineBuffer :=
  match bs with
  | [] => l
  | b :: rest => LineBuffer.processAll n rest (l.process n b)

/-- The state after `k` steps; `none` where one of them is refused. -/
def steps : Nat → State → Option State
  | 0, s => some s
  | k + 1, s =>
    match step s with
    | .next t => steps k t
    | .fault _ => none
    | .refused _ => none

/-- What one operation reports to the outside: its result and its capability calls. -/
abbrev Report := Result × List XcvrCall

/-- No fewer steps than one call takes: a `process_sequence` takes one for each byte (R171), every other
operation one (R5). -/
def Request.work (r : Request) : Nat :=
  r.bytes.length + 1

/-- No fewer steps than a stimulus takes with all that it puts before later stimuli. -/
def Stimulus.work : Stimulus → Nat
  | .call r => r.work
  | .enterSbus _ => 4
  | .sbusIdleBranch => 2
  | .sequenceByte _ => 1
  | .enterConsole _ => 2
  | .overlapping a b => 1 + a.work + b.work

/-- Steps until no stimulus is left, `k` at most, with their reports in order; `none` where one is
refused or `k` are too few. -/
def settle : Nat → State → Option (List Report × State)
  | 0, s => if s.pending.isEmpty then some ([], s) else none
  | k + 1, s =>
    if s.pending.isEmpty then some ([], s)
    else
      match step s with
      | .next t => (settle k t).map fun r => ((t.result, t.calls) :: r.1, r.2)
      | .fault _ => none
      | .refused _ => none

/-- The stimuli `xs` presented one after the other, each once all that the one before put off is done,
with the reports of all their steps in order; `none` where one of them is refused. -/
def deliver : List Stimulus → State → Option (List Report × State)
  | [], s => some ([], s)
  | x :: xs, s =>
    match settle x.work (s.withPending [x]) with
    | some (o, t) => (deliver xs t).map fun r => (o ++ r.1, r.2)
    | none => none

/-- Bytes of the RC-input UART, one `process_char` each, left to right (R107 `sbus.rx`). -/
def sbusRx (bs : List Byte) : List Stimulus :=
  bs.map fun b => .call (charRequest b)

/-- `SUI.PROCESS(b)` from the console handler (R107 `con.key`). -/
def keyRequest (b : Byte) : Request where
  context := .console
  entry := .uiProcess
  bytes := [b]
  answers := none

/-- `LB.SEQ(bs)` from the console handler (R107 `con.keys`). -/
def sequenceRequest (bs : List Byte) : Request where
  context := .console
  entry := .processSequence
  bytes := bs
  answers := none

/-- Console keys, one `SUI.PROCESS` each, left to right. -/
def keys (bs : List Byte) : List Stimulus :=
  bs.map fun b => .call (keyRequest b)

/-- `SBUS.READ` from the foreground context (R107 `sbus.read`). -/
def readRequest : Request where
  context := .foreground
  entry := .readLast
  bytes := []
  answers := none

/-- The bytes handed to `write_byte` by a list of calls, in order. -/
def writtenBytes : List XcvrCall → List Byte
  | [] => []
  | .writeByte _ b _ :: rest => b :: writtenBytes rest
  | .isLineIdle _ _ :: rest => writtenBytes rest
  | .isTransmitReady _ _ :: rest => writtenBytes rest
  | .isReceiveReady _ _ :: rest => writtenBytes rest
  | .readByte _ _ :: rest => writtenBytes rest

/-- A call on the decoder or its latch that leaves the console's answers as they stand. -/
def Stimulus.isSbusCall : Stimulus → Bool
  | .call r => (subBlockOf r.entry == .decoder || subBlockOf r.entry == .latch) && r.answers == none
  | .enterSbus _ => false
  | .sbusIdleBranch => false
  | .sequenceByte _ => false
  | .enterConsole _ => false
  | .overlapping _ _ => false

/-- A call on the Serial UI, or one byte of a sequence of such calls. -/
def Stimulus.isConsoleCall : Stimulus → Bool
  | .call r => subBlockOf r.entry == .serialUi
  | .enterSbus _ => false
  | .sbusIdleBranch => false
  | .sequenceByte _ => true
  | .enterConsole _ => false
  | .overlapping _ _ => false

/-! ## Frames -/

/-- The 176-bit integer `W`: the sum over `k` of `c[k] << (11*k)` (R109). -/
def packWord (chans : Vector Channel 16) : Nat :=
  ((List.range 16).map fun k => (chans[k]?.getD 0).toNat <<< (11 * k)).sum

/-- Data byte `Bp` of the frame that carries `chans` (R109). -/
def packByte (chans : Vector Channel 16) (p : Nat) : Byte :=
  BitVec.ofNat 8 (packWord chans >>> (8 * (p - 1)))

/-- `f17 OR f18<<1 OR fl<<2 OR fs<<3` (R109). -/
def packFlags (f : SbusFrame) : Byte :=
  BitVec.ofNat 8 (f.ch17.toNat ||| f.ch18.toNat <<< 1 ||| f.frameLost.toNat <<< 2
    ||| f.failsafe.toNat <<< 3)

/-- The 25 bytes of the frame that carries the channels and flags of `f` (R90, R109). -/
def packFrame (f : SbusFrame) : List Byte :=
  [0x0F] ++ (List.range 22).map (fun i => packByte f.ch (i + 1)) ++ [packFlags f, 0x00]

/-- The reports of a frame's 25 calls: false 24 times, then `last` (R141, R142). -/
def frameReports (last : Bool) : List Report :=
  List.replicate 24 (.frameValid false, []) ++ [(.frameValid last, [])]

/-- The per-channel table of R95: the 16 channel values in terms of the values `B p` of the data
bytes. -/
def closedChannels (B : Nat → Nat) : List Nat :=
  [ (B 1 ||| B 2 <<< 8) &&& 0x7FF,
    (B 2 >>> 3 ||| B 3 <<< 5) &&& 0x7FF,
    (B 3 >>> 6 ||| B 4 <<< 2 ||| B 5 <<< 10) &&& 0x7FF,
    (B 5 >>> 1 ||| B 6 <<< 7) &&& 0x7FF,
    (B 6 >>> 4 ||| B 7 <<< 4) &&& 0x7FF,
    (B 7 >>> 7 ||| B 8 <<< 1 ||| B 9 <<< 9) &&& 0x7FF,
    (B 9 >>> 2 ||| B 10 <<< 6) &&& 0x7FF,
    (B 10 >>> 5 ||| B 11 <<< 3) &&& 0x7FF,
    (B 12 ||| B 13 <<< 8) &&& 0x7FF,
    (B 13 >>> 3 ||| B 14 <<< 5) &&& 0x7FF,
    (B 14 >>> 6 ||| B 15 <<< 2 ||| B 16 <<< 10) &&& 0x7FF,
    (B 16 >>> 1 ||| B 17 <<< 7) &&& 0x7FF,
    (B 17 >>> 4 ||| B 18 <<< 4) &&& 0x7FF,
    (B 18 >>> 7 ||| B 19 <<< 1 ||| B 20 <<< 9) &&& 0x7FF,
    (B 20 >>> 2 ||| B 21 <<< 6) &&& 0x7FF,
    (B 21 >>> 5 ||| B 22 <<< 3) &&& 0x7FF ]

end Sys2Proof.Machine
end

