-- ==== Sys2Proof/Certificates/Slice0/Obligations.lean ====
section
/-! DEFINITION. The statements for the provers. Each docstring names the rule of spec/ it formalises;
OBLIGATIONS.json lists them. -/

open Sys2Proof Sys2Proof.Machine

/-! ## Decoding and encoding -/

/-- Decoding the call that stands for an operation gives the operation back, at every position that
selects it and for every operand the operation admits (R98, R101, R105, R130). -/
def Obligations.DecodeOfEncodeGivesTheOperationBack : Prop :=
  ∀ (i : Instr) (p : Position), i.wf = true → i.selectedAt p = true →
    decode p (encode i).1 (encode i).2 = .ok i

/-- Whatever decodes, decodes to an operation with an operand its rule admits, at a position that
selects it, and the call is that operation's own (R98, R101, R130). -/
def Obligations.DecodedOperationIsAdmittedSelectedAndItsOwnCall : Prop :=
  ∀ (p : Position) (e : EntryPoint) (bs : List Byte) (i : Instr), decode p e bs = .ok i →
    i.wf = true ∧ i.selectedAt p = true ∧ encode i = (e, bs)

/-- At a position that is held, a byte given to `process_char` selects exactly one operation (R130: the
conditions are exclusive and exhaustive). -/
def Obligations.ProcessCharSelectsExactlyOneOperation : Prop :=
  ∀ (p : Position) (b : Byte), p.toNat ≤ 24 →
    ∃! i : Instr, i.wf = true ∧ i.selectedAt p = true ∧ encode i = (.processChar, [b])

/-- R130: `process_char(b)` performs the operation that `POS` and `b` select, and returns one bit. -/
def Obligations.ProcessCharPerformsTheSelectedOperation : Prop :=
  ∀ (s : State) (b : Byte) (rest : List Stimulus), s.pending = .call (charRequest b) :: rest →
    (s.dec.pos.toNat = 0 → b ≠ 0x0F → step s = exec (.sbusSkip b) (s.withPending rest)) ∧
    (s.dec.pos.toNat = 0 → b = 0x0F → step s = exec .sbusSync (s.withPending rest)) ∧
    (1 ≤ s.dec.pos.toNat → s.dec.pos.toNat ≤ 22 →
      step s = exec (.sbusChan b) (s.withPending rest)) ∧
    (s.dec.pos.toNat = 23 → step s = exec (.sbusFlags b) (s.withPending rest)) ∧
    (s.dec.pos.toNat = 24 → b = 0x00 → step s = exec .sbusTermOk (s.withPending rest)) ∧
    (s.dec.pos.toNat = 24 → b ≠ 0x00 → step s = exec (.sbusTermBad b) (s.withPending rest)) ∧
    (s.dec.pos.toNat ≤ 24 → ∃ t v, step s = .next t ∧ t.result = .frameValid v)

/-- R101: every console byte selects exactly one operation, by the three classes; they have 7, 128 and
121 members. That the second class is 0x80 to 0xFF and the third every other byte is the spec's own
choice (D9, D10; log 21). -/
def Obligations.ConsoleByteDecodesByItsClass : Prop :=
  (decodeConsole 0x01 = .lbSol ∧ decodeConsole 0x02 = .lbLeft ∧ decodeConsole 0x05 = .lbEol ∧
    decodeConsole 0x06 = .lbRight ∧ decodeConsole 0x08 = .lbBs ∧ decodeConsole 0x0B = .lbKill ∧
    decodeConsole 0x7F = .lbDel) ∧
  (∀ b : Byte, 0x80 ≤ b.toNat → decodeConsole b = .lbDrop b) ∧
  (∀ b : Byte, b.toNat < 0x80 → b ∉ ([0x01, 0x02, 0x05, 0x06, 0x08, 0x0B, 0x7F] : List Byte) →
    decodeConsole b = .lbIns b) ∧
  ((List.range 256).filter fun n => decodeConsole (BitVec.ofNat 8 n) =
    .lbDrop (BitVec.ofNat 8 n)).length = 128 ∧
  ((List.range 256).filter fun n => decodeConsole (BitVec.ofNat 8 n) =
    .lbIns (BitVec.ofNat 8 n)).length = 121

/-- The rows of spec/opcode_table.json, read with masks in ascending priority as R108 says, decode every
byte as the rules do. -/
def Obligations.TableRowsDecodeAsTheRules : Prop :=
  (∀ (p : Position) (b : Byte), p.toNat ≤ 24 →
    ∃ i, decodeRows sbusRows p b = some i ∧ decode p .processChar [b] = .ok i) ∧
  (∀ (p : Position) (b : Byte),
    ∃ i, decodeRows consoleRows p b = some i ∧ decode p .process [b] = .ok i)

/-- Bytes written out from the spec's encodings (R90, R91, R97, R100, R101) decode to their operations.
That 0x7E is inserted and 0x80 dropped is the spec's own choice (D10, D9; log 21). -/
def Obligations.WrittenOutBytesDecode : Prop :=
  decode 0 .processChar [0b00001111] = .ok .sbusSync ∧
  decode 5 .processChar [0b00001111] = .ok (.sbusChan 0b00001111) ∧
  decode 23 .processChar [0b00001100] = .ok (.sbusFlags 0b00001100) ∧
  decode 24 .processChar [0b00000000] = .ok .sbusTermOk ∧
  decode 0 .process [0b00000001] = .ok .lbSol ∧
  decode 0 .process [0b01111111] = .ok .lbDel ∧
  decode 0 .process [0b01111110] = .ok (.lbIns 0b01111110) ∧
  decode 0 .process [0b10000000] = .ok (.lbDrop 0b10000000)

/-! ## The step -/

/-- When the next stimulus is a call that its context may issue and that decodes to a well-formed
operation, the step is that operation, on the state with the call taken off and the request's answers
in place (R5, R73, R80; the form of the request and its answers is the model's, logs 4 and 8). `RESET`
happens before a run, and the step refuses it (R261; log 14). -/
def Obligations.StepRunsTheDecodedOperation : Prop :=
  ∀ (s : State) (r : Request) (rest : List Stimulus) (i : Instr), s.pending = .call r :: rest →
    r.context.mayIssue r.entry = true → decode s.dec.pos r.entry r.bytes = .ok i → i.wf = true →
    (i ≠ .reset → step s = exec i { s with pending := rest, console := r.answers.getD s.console }) ∧
    (i = .reset → step s = .refused .alreadyConstructed)

/-- `RESET` is not offered during a run: whoever asks for it, alone or at once with another operation,
no step performs it (R261; 93_implementation_defined: not offered as a step). The rule gives only that
it is not offered. That the platform's call is refused as `alreadyConstructed` (log 14), any other
context's as `wrongContext` (log 10), and that `RESET` overlaps with everything (log 11) are the
model's choices. -/
def Obligations.NoStepPerformsReset : Prop :=
  ∀ (s : State) (rest : List Stimulus),
    (∀ r, s.pending = .call r :: rest → r.entry = .construct → ∃ e, step s = .refused e) ∧
    (∀ a b, s.pending = .overlapping a b :: rest → (a.entry = .construct ∨ b.entry = .construct) →
      step s = .refused .overlap) ∧
    (∀ c, s.pending = .call ⟨c, .construct, [], none⟩ :: rest →
      step s = .refused (if c = .platform then .alreadyConstructed else .wrongContext c .construct))

/-- An operation issued from a context that the table of R238 does not allow is refused (the model's
choice for the line buffer's own entry points and for `RESET`, log 10; R8 and 93_implementation_defined:
refuse). -/
def Obligations.OperationFromForbiddenContextIsRefused : Prop :=
  ∀ (s : State) (r : Request) (rest : List Stimulus), s.pending = .call r :: rest →
    ((r.entry ∈ [EntryPoint.processChar, .processIdle, .readAcc] ∧ r.context ≠ .sbusRx) ∨
     (r.entry = .readLast ∧ r.context ≠ .foreground) ∨
     (r.entry = .onEvent ∧ r.context ≠ .console) ∨
     (r.entry ∈ [EntryPoint.write, .uiProcess, .uiContent, .process, .content, .processSequence] ∧
       r.context ≠ .console ∧ r.context ≠ .foreground) ∨
     (r.entry = .construct ∧ r.context ≠ .platform)) →
    step s = .refused (.wrongContext r.context r.entry)

/-- A call with a number of operand bytes its entry point does not take is no operation and is refused
(R9, R105; the refusal is the model's choice, log 19). -/
def Obligations.CallWithWrongOperandCountIsRefused : Prop :=
  ∀ (s : State) (r : Request) (rest : List Stimulus), s.pending = .call r :: rest →
    r.context.mayIssue r.entry = true → r.entry.takes r.bytes.length = false →
    step s = .refused (.badCall (.operandCount r.entry r.bytes.length))

/-- Two operations on the Serial UI at once, or two on the decoder, are refused (R76, R77, R272; that
`RESET` overlaps with everything is the model's choice, log 11). -/
def Obligations.OverlapOnOneSubBlockIsRefused : Prop :=
  ∀ (s : State) (a b : Request) (rest : List Stimulus), s.pending = .overlapping a b :: rest →
    ((a.entry ∈ [EntryPoint.process, .content, .processSequence, .write, .onEvent, .uiProcess,
        .uiContent] ∧
      b.entry ∈ [EntryPoint.process, .content, .processSequence, .write, .onEvent, .uiProcess,
        .uiContent]) ∨
     (a.entry ∈ [EntryPoint.processChar, .processIdle, .readAcc] ∧
      b.entry ∈ [EntryPoint.processChar, .processIdle, .readAcc]) ∨
     a.entry = .construct ∨ b.entry = .construct) →
    step s = .refused .overlap

/-- A byte that arrives while `SBUS.READ` is in progress is processed after the read, which returns
`LAST` as it stood (R78, R79). That the two are put in order by a step of their own is the model's
choice (log 11). -/
def Obligations.LockedReadIsDoneBeforeTheArrivingByte : Prop :=
  ∀ (s : State) (b : Byte) (rest : List Stimulus),
    s.pending = .overlapping readRequest (charRequest b) :: rest →
    ∃ t, steps 2 s = some t ∧ t.result = .lastFrame s.dec.lastValid s.dec.last ∧ t.dec = s.dec ∧
      t.pending = .call (charRequest b) :: rest

/-- A byte that arrives while the foreground runs an operation of the Serial UI is processed first: the
handler's priority is strictly higher (R6, R236; the order is the model's reading, log 11). -/
def Obligations.SbusBytePreemptsForegroundConsoleOperation : Prop :=
  ∀ (s : State) (r : Request) (b : Byte) (rest : List Stimulus), s.params.Legal →
    r.context = .foreground →
    r.entry ∈ [EntryPoint.process, .content, .processSequence, .write, .uiProcess, .uiContent] →
    s.pending = .overlapping r (charRequest b) :: rest →
    ∃ t, step s = .next t ∧ SameBlock s t ∧
      t.pending = .call (charRequest b) :: .call r :: rest

/-- Every operation completes at every position that selects it, and leaves the parameters and the
environment's inputs alone, but that `LB.SEQ` puts its later bytes before the stimuli to come (log
13); at any other position it is refused (R8, R130). The refusal is the model's choice (log 9), and so
it is that the transceivers' next answers stand as they were after an operation that calls them (log
8). The statement covers every operand, those that no rule admits included, on which `exec` runs the
row's pseudocode (the model's choice, log 20; the decoder never yields one), and `RESET`, which `exec`
completes in every state with the inputs kept (the model's choice, log 14; no step performs it). -/
def Obligations.OperationCompletesExactlyWhereSelected : Prop :=
  ∀ (i : Instr) (s : State),
    (i.selectedAt s.dec.pos = true → ∃ t, exec i s = .next t ∧ SameAnswers s t ∧
      ((∀ bs, i ≠ .lbSeq bs) → t.pending = s.pending) ∧
      (∀ bs, i = .lbSeq bs → t.pending = bs.tail.map .sequenceByte ++ s.pending)) ∧
    (i.selectedAt s.dec.pos = false → exec i s = .refused .notSelected)

/-- Every step keeps the invariant of the block: `POS` in range, the accumulator clear beyond the
bytes received, no frame without `LAST_VALID`, the cursor within the length and the length within the
capacity, ASCII content, the byte store canonical and within the capacity, the queue within its
capacity (R27, R28, R30, R37, R172). The canonical form of the store is the model's (log 7). -/
def Obligations.EveryStepKeepsTheInvariant : Prop :=
  ∀ s t : State, s.Inv → step s = .next t → t.Inv

/-- The invariant holds right after reset, for every legal choice of the parameters (R260). The
decoder's and the queue's values are the spec's own choices (D6, D7; log 21); the parameters at reset
are the model's (logs 1, 2, 3). -/
def Obligations.InvariantHoldsAfterReset : Prop :=
  (∀ p : Params, p.Legal → (State.resetWith p).Inv) ∧ State.reset.Inv

/-- No step changes the parameters (R6). That they stand in the state is the model's choice (log 1).
-/
def Obligations.NoStepChangesTheParameters : Prop :=
  ∀ s t : State, step s = .next t → t.params = s.params

/-- The result and the calls of an operation are outputs: no later operation reads them (R25). That
the outputs stand in the state is the model's choice (log 5). It covers operands that no rule admits
too (log 20). -/
def Obligations.NoOperationReadsAnEarlierResult : Prop :=
  ∀ (i : Instr) (s : State) (r : Result) (cs : List XcvrCall),
    exec i { s with result := r, calls := cs } = exec i s

/-- Which operations may write which element of the block's state: the accumulator's channels and
flags, `LAST` with `LAST_VALID`, `POS`, the line buffer and the queue (R21, R22, R23, R24, R26, R30;
`RESET` writes all, R260). It covers operands that no rule admits too (the model's choice, log 20). -/
def Obligations.EachElementIsWrittenOnlyByItsOperations : Prop :=
  ∀ (i : Instr) (s t : State), exec i s = .next t →
    (t.dec.acc.ch ≠ s.dec.acc.ch → i = .sbusSync ∨ (∃ b, i = .sbusChan b) ∨ i = .reset) ∧
    ((t.dec.acc.ch17, t.dec.acc.ch18, t.dec.acc.frameLost, t.dec.acc.failsafe) ≠
        (s.dec.acc.ch17, s.dec.acc.ch18, s.dec.acc.frameLost, s.dec.acc.failsafe) →
      i = .sbusSync ∨ (∃ b, i = .sbusFlags b) ∨ i = .reset) ∧
    (¬ SameLatch s.dec t.dec → i = .sbusTermOk ∨ i = .reset) ∧
    (t.dec.pos ≠ s.dec.pos → (encode i).1 = .processChar ∨ i = .sbusIdle ∨ i = .reset) ∧
    (t.line ≠ s.line →
      i ∈ [.lbSol, .lbLeft, .lbEol, .lbRight, .lbBs, .lbKill, .lbDel] ∨ (∃ b, i = .lbIns b) ∨
        (∃ bs, i = .lbSeq bs) ∨ i = .suiEvent ∨ (∃ b, i = .suiProcess b) ∨ i = .reset) ∧
    (t.queue ≠ s.queue → (∃ b, i = .suiWrite b) ∨ i = .suiEvent ∨ i = .reset)

/-! ## The SBUS decoder -/

/-- R131. -/
def Obligations.SkipIgnoresTheByte : Prop :=
  ∀ (s : State) (b : Byte), s.dec.pos = 0 → b ≠ 0x0F →
    ∃ t, exec (.sbusSkip b) s = .next t ∧ t.result = .frameValid false ∧ t.calls = [] ∧
      SameButOutputs s t

/-- R132. -/
def Obligations.SyncClearsTheAccumulator : Prop :=
  ∀ s : State, s.dec.pos = 0 →
    ∃ t, exec .sbusSync s = .next t ∧ t.result = .frameValid false ∧ t.calls = [] ∧
      (∀ k < 16, t.dec.acc.channel k = 0) ∧ t.dec.acc.FlagsClear ∧ t.dec.pos = 1 ∧
      SameLatch s.dec t.dec ∧ SameButDecoder s t

/-- R133, read bit by bit over the stream of R93: the eight bits of data byte `POS` are ORed in, every
other channel bit and the flags are as they were. -/
def Obligations.DataByteIsOredIntoItsStreamBits : Prop :=
  ∀ (s : State) (b : Byte), 1 ≤ s.dec.pos.toNat → s.dec.pos.toNat ≤ 22 →
    ∃ t, exec (.sbusChan b) s = .next t ∧ t.result = .frameValid false ∧ t.calls = [] ∧
      t.dec.pos.toNat = s.dec.pos.toNat + 1 ∧
      (∀ n < 176, t.dec.acc.streamBit n = (s.dec.acc.streamBit n ||
        (decide (8 * (s.dec.pos.toNat - 1) ≤ n) && decide (n < 8 * s.dec.pos.toNat) &&
          b.getLsbD (n - 8 * (s.dec.pos.toNat - 1))))) ∧
      t.dec.acc.ch17 = s.dec.acc.ch17 ∧ t.dec.acc.ch18 = s.dec.acc.ch18 ∧
      t.dec.acc.frameLost = s.dec.acc.frameLost ∧ t.dec.acc.failsafe = s.dec.acc.failsafe ∧
      SameLatch s.dec t.dec ∧ SameButDecoder s t

/-- Under the invariant the OR is a plain store: stream bit `8*(p-1)+i` becomes bit `i` of the byte
(R37, R93). -/
def Obligations.DataByteIsStoredUnderTheInvariant : Prop :=
  ∀ (s : State) (b : Byte), s.Inv → 1 ≤ s.dec.pos.toNat → s.dec.pos.toNat ≤ 22 →
    ∃ t, exec (.sbusChan b) s = .next t ∧
      ∀ i < 8, t.dec.acc.streamBit (8 * (s.dec.pos.toNat - 1) + i) = b.getLsbD i

/-- R134. -/
def Obligations.FlagsByteWritesTheFourFlags : Prop :=
  ∀ (s : State) (b : Byte), s.dec.pos = 23 →
    ∃ t, exec (.sbusFlags b) s = .next t ∧ t.result = .frameValid false ∧ t.calls = [] ∧
      t.dec.acc.ch17 = b.getLsbD 0 ∧ t.dec.acc.ch18 = b.getLsbD 1 ∧
      t.dec.acc.frameLost = b.getLsbD 2 ∧ t.dec.acc.failsafe = b.getLsbD 3 ∧
      (∀ k < 16, t.dec.acc.channel k = s.dec.acc.channel k) ∧ t.dec.pos = 24 ∧
      SameLatch s.dec t.dec ∧ SameButDecoder s t

/-- R135. That the completed frame is copied into a latch of the block, with `LAST_VALID`, is the spec's
own choice (D2, D7; log 21). -/
def Obligations.GoodTerminatorLatchesTheFrame : Prop :=
  ∀ s : State, s.dec.pos = 24 →
    ∃ t, exec .sbusTermOk s = .next t ∧ t.result = .frameValid true ∧ t.calls = [] ∧
      t.dec.last = s.dec.acc ∧ t.dec.lastValid = true ∧ t.dec.pos = 0 ∧ t.dec.acc = s.dec.acc ∧
      SameButDecoder s t

/-- R136. That `ACC` is kept is the spec's own choice (D4; log 21). -/
def Obligations.BadTerminatorDropsTheFrame : Prop :=
  ∀ (s : State) (b : Byte), s.dec.pos = 24 → b ≠ 0x00 →
    ∃ t, exec (.sbusTermBad b) s = .next t ∧ t.result = .frameValid false ∧ t.calls = [] ∧
      t.dec.pos = 0 ∧ t.dec.acc = s.dec.acc ∧ SameLatch s.dec t.dec ∧ SameButDecoder s t

/-- R137. That `ACC` is kept is the spec's own choice (D4; log 21). -/
def Obligations.IdleResetsThePositionOnly : Prop :=
  ∀ s : State, ∃ t, exec .sbusIdle s = .next t ∧ ReturnsNothing t ∧ t.dec.pos = 0 ∧
    t.dec.acc = s.dec.acc ∧ SameLatch s.dec t.dec ∧ SameButDecoder s t

/-- R138 and R139: the two reads return their twenty fields and change nothing. That `ACC` can be
read, and that the completed frame is a latch with `LAST_VALID`, are the spec's own choices (D2, D3,
D7; log 21). -/
def Obligations.FrameReadsReturnTheFieldsAndChangeNothing : Prop :=
  ∀ s : State,
    (∃ t, exec .sbusRead s = .next t ∧ t.result = .lastFrame s.dec.lastValid s.dec.last ∧
      t.calls = [] ∧ SameButOutputs s t) ∧
    (∃ t, exec .sbusReadacc s = .next t ∧ t.result = .accFrame s.dec.acc ∧ t.calls = [] ∧
      SameButOutputs s t)

/-- A completed frame stays readable through `SBUS.READACC` over any skipped bytes and idle events
that follow it (R139). That an idle event keeps `ACC` is the spec's own choice (D4; log 21). -/
def Obligations.CompletedFrameSurvivesSkipsAndIdles : Prop :=
  ∀ (s : State) (xs : List Stimulus), s.dec.pos = 24 →
    (∀ x ∈ xs, x = .call idleRequest ∨ ∃ b, b ≠ 0x0F ∧ x = .call (charRequest b)) →
    ∃ t out u, exec .sbusTermOk s = .next t ∧ deliver xs t = some (out, u) ∧
      u.dec.acc = s.dec.acc ∧ u.dec.last = s.dec.acc ∧ u.dec.pos = 0

/-- R140, first sentence: `process_char` never refuses at a position that is held, and returns true if
and only if `POS = 24` and the byte is 0x00. -/
def Obligations.ProcessCharReturnsTrueExactlyOnAGoodTerminator : Prop :=
  ∀ (s : State) (b : Byte) (rest : List Stimulus), s.pending = .call (charRequest b) :: rest →
    s.dec.pos.toNat ≤ 24 →
    ∃ t, step s = .next t ∧ t.pending = rest ∧
      t.result = .frameValid (decide (s.dec.pos.toNat = 24 ∧ b = 0x00))

/-- R140, second sentence: true is returned at most once in any 25 consecutive calls. -/
def Obligations.AtMostOneFrameInTwentyFiveBytes : Prop :=
  ∀ (s : State) (bs : List Byte), s.dec.pos.toNat ≤ 24 → bs.length ≤ 25 →
    ∃ out t, deliver (sbusRx bs) s = some (out, t) ∧
      (out.filter fun r => r.1 = .frameValid true).length ≤ 1

/-- R141: the frame that carries given channels and flags, fed from `POS = 0`, is decoded to them. -/
def Obligations.PackedFrameRoundTrips : Prop :=
  ∀ (s : State) (f : SbusFrame), s.dec.pos = 0 →
    ∃ t, deliver (sbusRx (packFrame f)) s = some (frameReports true, t) ∧ t.dec.pos = 0 ∧
      t.dec.lastValid = true ∧ t.dec.last = f ∧ t.line = s.line ∧ t.queue = s.queue

/-- R142: a run with a non-zero 25th byte is dropped, and a valid frame fed after it is decoded. -/
def Obligations.BadFrameIsDroppedAndTheNextDecodes : Prop :=
  ∀ (s : State) (bs : List Byte) (x : Byte) (f : SbusFrame), s.dec.pos = 0 → bs.length = 23 →
    x ≠ 0x00 →
    ∃ t u, deliver (sbusRx (0x0F :: bs ++ [x])) s = some (frameReports false, t) ∧
      t.dec.pos = 0 ∧ SameLatch s.dec t.dec ∧
      deliver (sbusRx (packFrame f)) t = some (frameReports true, u) ∧ u.dec.pos = 0 ∧
      u.dec.lastValid = true ∧ u.dec.last = f

/-- R143: after `process_idle()` from any state a valid frame is decoded. -/
def Obligations.FrameAfterIdleDecodesFromAnyState : Prop :=
  ∀ (s : State) (f : SbusFrame),
    ∃ t u, exec .sbusIdle s = .next t ∧
      deliver (sbusRx (packFrame f)) t = some (frameReports true, u) ∧ u.dec.pos = 0 ∧
      u.dec.lastValid = true ∧ u.dec.last = f

/-- The byte-by-byte decoder is the closed form of R95, for every frame and whatever the accumulator
held before; the flags are bits 0 to 3 of byte 23 (R96). -/
def Obligations.DecodedChannelsAreTheClosedForm : Prop :=
  ∀ (s : State) (B : Nat → Byte), s.dec.pos = 0 →
    ∃ t, deliver (sbusRx ([0x0F] ++ (List.range 23).map (fun i => B (i + 1)) ++ [0x00])) s =
        some (frameReports true, t) ∧
      (∀ k < 16, (t.dec.last.channel k).toNat =
        (closedChannels fun p => (B p).toNat).getD k 0) ∧
      t.dec.last.ch17 = (B 23).getLsbD 0 ∧ t.dec.last.ch18 = (B 23).getLsbD 1 ∧
      t.dec.last.frameLost = (B 23).getLsbD 2 ∧ t.dec.last.failsafe = (B 23).getLsbD 3

/-- Once a sync byte is taken the next 24 bytes are consumed as frame bytes 1 to 24 whatever their
values (R144). -/
def Obligations.NoResynchronisationInsideAFrame : Prop :=
  ∀ (s : State) (bs : List Byte), s.dec.pos = 0 → bs.length ≤ 24 →
    ∃ out t, deliver (sbusRx (0x0F :: bs)) s = some (out, t) ∧
      t.dec.pos.toNat = if bs.length ≤ 23 then bs.length + 1 else 0

/-- Only a good terminator changes `LAST` or `LAST_VALID` in a run, whatever the stimulus
(R24, R145). -/
def Obligations.OnlyAGoodTerminatorChangesTheLatch : Prop :=
  ∀ s t : State, step s = .next t → ¬ SameLatch s.dec t.dec →
    ∃ r rest, s.pending = .call r :: rest ∧
      r.entry = .processChar ∧ r.bytes = [0x00] ∧ s.dec.pos = 24 ∧ t.dec.last = s.dec.acc

/-! ## The line buffer -/

/-- R161 to R164: the four cursor movements, clamped; the content and the cells are as they were. -/
def Obligations.CursorMovesClampAndKeepTheText : Prop :=
  ∀ s : State, s.line.cur ≤ s.line.len →
    (∃ t, exec .lbSol s = .next t ∧ ReturnsNothing t ∧ t.line.cur = 0 ∧ t.line.len = s.line.len ∧
      t.line.buf = s.line.buf ∧ SameButLine s t) ∧
    (∃ t, exec .lbLeft s = .next t ∧ ReturnsNothing t ∧
      (t.line.cur : Int) = max ((s.line.cur : Int) - 1) 0 ∧ t.line.len = s.line.len ∧
      t.line.buf = s.line.buf ∧ SameButLine s t) ∧
    (∃ t, exec .lbEol s = .next t ∧ ReturnsNothing t ∧ t.line.cur = s.line.len ∧
      t.line.len = s.line.len ∧ t.line.buf = s.line.buf ∧ SameButLine s t) ∧
    (∃ t, exec .lbRight s = .next t ∧ ReturnsNothing t ∧
      t.line.cur = min (s.line.cur + 1) s.line.len ∧ t.line.len = s.line.len ∧
      t.line.buf = s.line.buf ∧ SameButLine s t)

/-- R165: backspace removes the byte before the cursor; it stores to the cells `CUR-1` to `LEN-2` only
(R172); at `CUR = 0` it changes nothing. -/
def Obligations.BackspaceRemovesTheByteBeforeTheCursor : Prop :=
  ∀ s : State, s.line.Inv s.params.lbCapacity →
    ∃ t, exec .lbBs s = .next t ∧ ReturnsNothing t ∧ SameButLine s t ∧
      (s.line.cur = 0 → t.line = s.line) ∧
      (0 < s.line.cur →
        t.line.content = s.line.content.take (s.line.cur - 1) ++ s.line.content.drop s.line.cur ∧
        t.line.cur = s.line.cur - 1 ∧ t.line.len = s.line.len - 1 ∧
        ∀ a, (a < s.line.cur - 1 ∨ s.line.len - 1 ≤ a) →
          Memory.read t.line.buf a = Memory.read s.line.buf a)

/-- R166: kill-to-end truncates the content at the cursor; no cell is stored to. -/
def Obligations.KillTruncatesAtTheCursor : Prop :=
  ∀ s : State, s.line.cur ≤ s.line.len →
    ∃ t, exec .lbKill s = .next t ∧ ReturnsNothing t ∧ SameButLine s t ∧
      t.line.content = s.line.content.take s.line.cur ∧ t.line.len = s.line.cur ∧
      t.line.cur = s.line.cur ∧ ∀ a, Memory.read t.line.buf a = Memory.read s.line.buf a

/-- R167: delete-forward removes the byte at the cursor; it stores to the cells `CUR` to `LEN-2` only
(R172); at `CUR = LEN` it changes nothing. -/
def Obligations.DeleteForwardRemovesTheByteAtTheCursor : Prop :=
  ∀ s : State, s.line.Inv s.params.lbCapacity →
    ∃ t, exec .lbDel s = .next t ∧ ReturnsNothing t ∧ SameButLine s t ∧
      (s.line.cur = s.line.len → t.line = s.line) ∧
      (s.line.cur < s.line.len →
        t.line.content = s.line.content.take s.line.cur ++ s.line.content.drop (s.line.cur + 1) ∧
        t.line.cur = s.line.cur ∧ t.line.len = s.line.len - 1 ∧
        ∀ a, (a < s.line.cur ∨ s.line.len - 1 ≤ a) →
          Memory.read t.line.buf a = Memory.read s.line.buf a)

/-- R168: an insert puts the byte at the cursor where there is room, storing to the cells `CUR` to `LEN`
only (R172), and changes nothing where the buffer is full. -/
def Obligations.InsertPutsTheByteAtTheCursorOrIsRefused : Prop :=
  ∀ (s : State) (b : Byte), s.line.Inv s.params.lbCapacity → isInsertable b = true →
    ∃ t, exec (.lbIns b) s = .next t ∧ ReturnsNothing t ∧ SameButLine s t ∧
      (s.line.len = s.params.lbCapacity → t.line = s.line) ∧
      (s.line.len < s.params.lbCapacity →
        t.line.content =
          s.line.content.take s.line.cur ++ [b] ++ s.line.content.drop s.line.cur ∧
        t.line.cur = s.line.cur + 1 ∧ t.line.len = s.line.len + 1 ∧
        ∀ a, (a < s.line.cur ∨ s.line.len < a) →
          Memory.read t.line.buf a = Memory.read s.line.buf a)

/-- R169: a byte of 0x80 or more changes nothing. That such a byte is the character the source drops is
the spec's own choice (D9; log 21). -/
def Obligations.HighByteIsDropped : Prop :=
  ∀ (s : State) (b : Byte), 0x80 ≤ b.toNat →
    ∃ t, exec (.lbDrop b) s = .next t ∧ ReturnsNothing t ∧ SameButOutputs s t

/-- R170 and R199: `content()`, of the line buffer and of the Serial UI, returns the bytes
`BUF[0], ..., BUF[LEN-1]`, each below 0x80 under the line buffer's invariant, and changes nothing. That `content()` is a pure read
is the spec's own choice (D12; log 21). -/
def Obligations.ContentReturnsTheTextAndChangesNothing : Prop :=
  ∀ s : State, ∃ bytes : List Byte, bytes.length = s.line.len ∧
    (∀ i < s.line.len, bytes[i]? = some (Memory.read s.line.buf i)) ∧
    (s.line.Inv s.params.lbCapacity → ∀ b ∈ bytes, b.toNat < 0x80) ∧
    (∃ t, exec .lbContent s = .next t ∧ t.result = .text bytes ∧ t.calls = [] ∧
      SameButOutputs s t) ∧
    (∃ t, exec .suiContent s = .next t ∧ t.result = .text bytes ∧ t.calls = [] ∧
      SameButOutputs s t)

/-- R171: a sequence, from either context that may issue it, is its bytes processed one by one, left to
right, with cumulative state: once it is done the line is as after the same bytes as single keys, and
what was reported is what those keys report. That each byte's own step reports is the model's choice (log
13), and that both contexts may issue a sequence is its reading of R238 (log 10). -/
def Obligations.SequenceIsItsBytesOneByOne : Prop :=
  ∀ (s : State) (bs : List Byte) (c : Context), (c = .console ∨ c = .foreground) →
    ∃ out₁ t out₂ u,
      deliver [.call { sequenceRequest bs with context := c }] s = some (out₁, t) ∧
      deliver (keys bs) s = some (out₂, u) ∧ t.line = u.line ∧
      t.line = s.line.processAll s.params.lbCapacity bs ∧ t.dec = s.dec ∧ u.dec = s.dec ∧
      t.queue = s.queue ∧ u.queue = s.queue ∧
      out₂ = List.replicate bs.length (.nothing, []) ∧ (bs ≠ [] → out₁ = out₂)

/-- `LB.SEQ` has no step of its own (R67, R171, D28): its step is the operation of its first byte, with
the later bytes put before the stimuli to come, and each of those takes its own step, the operation it
decodes to. That the first byte shares the call's step and that no stimulus comes between is the model's
choice (log 13). -/
def Obligations.SequenceGoesOutByteByByte : Prop :=
  ∀ s : State,
    (∃ t, exec (.lbSeq []) s = .next t ∧ ReturnsNothing t ∧ SameButOutputs s t) ∧
    (∀ b bs, ∃ t, exec (.lbSeq (b :: bs)) s = .next t ∧ ReturnsNothing t ∧
      t.pending = bs.map .sequenceByte ++ s.pending ∧
      exec (decodeConsole b) s = .next { t with pending := s.pending }) ∧
    (∀ b rest, s.pending = .sequenceByte b :: rest →
      step s = exec (decodeConsole b) { s with pending := rest })

/-- A sequence of `n` bytes is done after `n` steps, the call's own counted, and leaves everything but
the line as it was, the stimuli to come included (R67, R171; the count is the model's choice, log 13). -/
def Obligations.SequenceTakesOneStepPerByte : Prop :=
  ∀ (s : State) (bs : List Byte), ∃ t u, exec (.lbSeq bs) s = .next t ∧
    steps (bs.length - 1) t = some u ∧ ReturnsNothing u ∧ SameButLine s u ∧
    u.line = s.line.processAll s.params.lbCapacity bs

/-- The line is cleared by 0x01 then 0x0B from any state, and by 0x05 then `LEN` times 0x08 (R174).
The number of steps after the call's own is the model's choice (log 13). -/
def Obligations.TheLineIsClearedByItsControlCodes : Prop :=
  ∀ s : State,
    (∃ t u, exec (.lbSeq [0x01, 0x0B]) s = .next t ∧ steps 1 t = some u ∧ u.line.len = 0 ∧
      u.line.cur = 0) ∧
    (∃ t u, exec (.lbSeq (0x05 :: List.replicate s.line.len 0x08)) s = .next t ∧
      steps s.line.len t = some u ∧ u.line.len = 0 ∧ u.line.cur = 0)

/-! ## The Serial UI -/

/-- R196: the three cases of `write`, with the capability calls each makes; the line buffer is not
touched. That a failed direct write is still `ok` is the spec's own choice (D14; log 21); that the
transceivers' next answers stand as they were is the model's (log 8). -/
def Obligations.WriteSendsQueuesOrWouldBlock : Prop :=
  ∀ (s : State) (b : Byte), ∃ t, exec (.suiWrite b) s = .next t ∧ t.line = s.line ∧
    SameButSerialUi s t ∧
    (s.console.transmitReady = true → t.result = .ok ∧ t.queue = s.queue ∧
      t.calls = [.isTransmitReady .console true, .writeByte .console b s.console.write]) ∧
    (s.console.transmitReady = false → s.queue.length < s.params.oqCapacity →
      t.result = .ok ∧ t.queue = s.queue ++ [b] ∧ t.calls = [.isTransmitReady .console false]) ∧
    (s.console.transmitReady = false → s.params.oqCapacity ≤ s.queue.length →
      t.result = .wouldBlock ∧ t.queue = s.queue ∧ t.calls = [.isTransmitReady .console false])

/-- Backpressure (R200 (a), (c)): within the capacity `write` stays within it, and would block if and
only if the queue is full and the transmitter not ready. -/
def Obligations.WriteBlocksOnlyOnAFullQueue : Prop :=
  ∀ (s : State) (b : Byte), s.queue.length ≤ s.params.oqCapacity →
    ∃ t, exec (.suiWrite b) s = .next t ∧ t.queue.length ≤ t.params.oqCapacity ∧
      (t.result = .wouldBlock ↔
        s.queue.length = s.params.oqCapacity ∧ s.console.transmitReady = false) ∧
      (t.result = .wouldBlock → t.queue = s.queue)

/-- R197: the two branches of `on_event`, receive first, and the capability calls in order. The order of
the branches and the loss of a dequeued byte whose write fails are the spec's own choices (D15, D16; log
21); that the transceivers' next answers stand as they were is the model's (log 8). -/
def Obligations.EventReceivesOneByteAndSendsOneByte : Prop :=
  ∀ s : State, ∃ t, exec .suiEvent s = .next t ∧ t.result = .nothing ∧ SameButSerialUi s t ∧
    (s.console.receiveReady = true → ∀ v, s.console.read = .byte v →
      ∃ u, exec (decodeConsole v) s = .next u ∧ t.line = u.line) ∧
    (s.console.receiveReady = false ∨ (∀ v, s.console.read ≠ .byte v) → t.line = s.line) ∧
    (s.console.transmitReady = true → ∀ v q, s.queue = v :: q → t.queue = q) ∧
    (s.console.transmitReady = false ∨ s.queue = [] → t.queue = s.queue) ∧
    t.calls =
      (if s.console.receiveReady then
        [.isReceiveReady .console true, .readByte .console s.console.read]
      else [.isReceiveReady .console false]) ++
      (if s.console.transmitReady then
        .isTransmitReady .console true ::
          (s.queue.take 1).map fun v => .writeByte .console v s.console.write
      else [.isTransmitReady .console false])

/-- R198: `SUI.PROCESS` is the line buffer operation its byte decodes to. -/
def Obligations.UiProcessIsTheDecodedLineOperation : Prop :=
  ∀ (s : State) (b : Byte), ∃ t, exec (.suiProcess b) s = .next t ∧
    exec (decodeConsole b) s = .next t ∧ ReturnsNothing t ∧ SameButLine s t

/-- Queued bytes leave in the order they entered: as many events with the transmitter ready as there
are queued bytes write exactly the queue, oldest first, whatever else those events answer (R74, R193).
That a byte whose write fails has left the queue all the same is the spec's own choice (D16; log 21).
-/
def Obligations.EventsDrainTheQueueInOrder : Prop :=
  ∀ (s : State) (as : List Answers), as.length = s.queue.length →
    (∀ a ∈ as, a.transmitReady = true) →
    ∃ out t, deliver (as.map fun a => .call (eventRequest a)) s = some (out, t) ∧
      out.flatMap (fun r => writtenBytes r.2) = s.queue ∧ t.queue = []

/-- Every interleaving of decoder calls with Serial UI calls, the bytes of a sequence included, that
keeps each sub-block's own order ends in the same state of both sub-blocks (R72, which the spec marks
as its own inference from R20 and R35). That a sequence goes out byte by byte in steps of its own is
the model's choice (log 13). -/
def Obligations.TheTwoUartsDoNotInteract : Prop :=
  ∀ (s t : State) (xs ys : List Stimulus) (out : List Report),
    (∀ x ∈ xs, x.isSbusCall = true ∨ x.isConsoleCall = true) →
    (∀ y ∈ ys, y.isSbusCall = true ∨ y.isConsoleCall = true) →
    xs.filter Stimulus.isSbusCall = ys.filter Stimulus.isSbusCall →
    xs.filter Stimulus.isConsoleCall = ys.filter Stimulus.isConsoleCall →
    deliver xs s = some (out, t) →
    ∃ out' t', deliver ys s = some (out', t') ∧ t'.dec = t.dec ∧ t'.line = t.line ∧
      t'.queue = t.queue

/-! ## Handlers and reset -/

/-- R226 to R228: one entry of the SBUS handler that finds a byte, step by step. The entry asks
whether a byte is ready and reads it once; the byte's operation comes next, as `exec` gives it; then
the idle branch asks once whether the line is idle. If it is not, the entry is done; if it is, the
position is reset. A frame whose terminator and idle come together is latched. (The sequence is the
spec's own choice, D19; log 21.) That the entry is three steps, or four with the line idle, is the
model's reading (log 12). -/
def Obligations.SbusHandlerDecodesTheByteBeforeTheIdle : Prop :=
  ∀ (s : State) (a : Answers) (v : Byte) (rest : List Stimulus),
    s.pending = .enterSbus a :: rest → a.receiveReady = true → a.read = .byte v →
    s.dec.pos.toNat ≤ 24 →
    ∃ i u e p q, decode s.dec.pos .processChar [v] = .ok i ∧ exec i s = .next u ∧
      step s = .next e ∧ SameBlock s e ∧
      e.calls = [.isReceiveReady .rcInput true, .readByte .rcInput (.byte v)] ∧
      step e = .next p ∧ p.dec = u.dec ∧ p.result = u.result ∧ p.calls = [] ∧
      p.line = s.line ∧ p.queue = s.queue ∧
      step p = .next q ∧ SameBlock p q ∧ q.calls = [.isLineIdle .rcInput a.lineIdle] ∧
      (a.lineIdle = false → q.pending = rest) ∧
      (a.lineIdle = true → ∃ t, step q = .next t ∧ t.dec = { u.dec with pos := 0 } ∧
        ReturnsNothing t ∧ t.line = s.line ∧ t.queue = s.queue ∧ t.pending = rest) ∧
      (s.dec.pos = 24 → v = 0x00 → u.dec.last = s.dec.acc ∧ u.dec.lastValid = true)

/-- One entry of the SBUS handler that finds no byte, or whose read delivers none, step by step: the
entry asks whether a byte is ready and reads only if one is; no decoder operation is applied for it,
and the position is not reset (R226, R229); the idle branch asks once whether the line is idle, and an
idle line resets the position (R227). That a failed read delivers nothing and does not reset is the
spec's own choice (D20; log 21); that the entry is two steps, or three with the line idle, is the
model's reading (log 12). -/
def Obligations.SbusHandlerWithoutAByteAppliesNoDecode : Prop :=
  ∀ (s : State) (a : Answers) (rest : List Stimulus), s.pending = .enterSbus a :: rest →
    (a.receiveReady = false ∨ a.read = .wouldBlock ∨ a.read = .error) →
    ∃ e q, step s = .next e ∧ SameBlock s e ∧
      (a.receiveReady = true →
        e.calls = [.isReceiveReady .rcInput true, .readByte .rcInput a.read]) ∧
      (a.receiveReady = false → e.calls = [.isReceiveReady .rcInput false]) ∧
      step e = .next q ∧ SameBlock s q ∧ q.calls = [.isLineIdle .rcInput a.lineIdle] ∧
      (a.lineIdle = false → q.pending = rest) ∧
      (a.lineIdle = true → ∃ t, step q = .next t ∧ t.dec = { s.dec with pos := 0 } ∧
        ReturnsNothing t ∧ t.line = s.line ∧ t.queue = s.queue ∧ t.pending = rest)

/-- R230: an entry of the console handler is one `SUI.EVENT` under the entry's answers. That it takes two
steps is the model's choice (log 12). -/
def Obligations.ConsoleHandlerAppliesOneEvent : Prop :=
  ∀ (s : State) (a : Answers) (rest : List Stimulus), s.pending = .enterConsole a :: rest →
    ∃ t, exec .suiEvent { s with pending := rest, console := a } = .next t ∧ steps 2 s = some t

/-- Entering a handler saves and changes nothing inside the block (R235). That the entry is a step of
its own is the model's reading (log 12). -/
def Obligations.EnteringAHandlerChangesNothingInTheBlock : Prop :=
  ∀ (s : State) (a : Answers) (rest : List Stimulus),
    (s.pending = .enterSbus a :: rest ∨ s.pending = .enterConsole a :: rest) →
    ∃ t, step s = .next t ∧ SameBlock s t

/-- R260: `RESET` puts every element of the block at its reset value, and the invariants of the
decoder and of the line buffer hold after it. The decoder's and the queue's values are the spec's own
choices (D6, D7; log 21); that it completes in every state and keeps the environment's inputs is the
model's (log 14). -/
def Obligations.ResetSetsEveryElement : Prop :=
  ∀ s : State, ∃ t, exec .reset s = .next t ∧ ReturnsNothing t ∧ t.dec.pos = 0 ∧
    (∀ k < 16, t.dec.acc.channel k = 0 ∧ t.dec.last.channel k = 0) ∧ t.dec.acc.FlagsClear ∧
    t.dec.last.FlagsClear ∧ t.dec.lastValid = false ∧ t.line.len = 0 ∧ t.line.cur = 0 ∧
    t.queue = [] ∧ SameInputs s t ∧ t.dec.Inv ∧ t.line.Inv t.params.lbCapacity
end

