-- ==== Sys2Proof/Laws/Decoding.lean ====
section
/-! SUPPORT. The decoder of calls: what a position lets a byte decode to. -/

namespace Sys2Proof

variable {p : Position} {b : Byte} {i : Instr}

/-- Everything a byte given to `process_char` can decode to. -/
theorem decodeChar_cases (h : decodeChar p b = .ok i) :
    (p = 0 ∧ b = 0x0F ∧ i = .sbusSync) ∨ (p = 0 ∧ b ≠ 0x0F ∧ i = .sbusSkip b) ∨
    (p ≠ 0 ∧ p ≤ 22 ∧ i = .sbusChan b) ∨ (p = 23 ∧ i = .sbusFlags b) ∨
    (p = 24 ∧ b = 0x00 ∧ i = .sbusTermOk) ∨ (p = 24 ∧ b ≠ 0x00 ∧ i = .sbusTermBad b) := by
  unfold decodeChar at h
  split_ifs at h <;> simp_all

/-- At a position that is ever held every byte decodes (R130). -/
theorem decodeChar_total (h : p.toNat ≤ 24) (b : Byte) : ∃ i, decodeChar p b = .ok i := by
  unfold decodeChar
  split_ifs with h0 h1 h2 h3 h4 h5
  iterate 6 exact ⟨_, rfl⟩
  refine absurd h ?_
  rw [BitVec.le_def] at h2
  have h3 : p.toNat ≠ 23 := fun e => h3 (BitVec.eq_of_toNat_eq (by simpa using e))
  have h4 : p.toNat ≠ 24 := fun e => h4 (BitVec.eq_of_toNat_eq (by simpa using e))
  simp at h2
  omega

/-- Everything a console byte can decode to (R101). -/
theorem decodeConsole_cases (P : Instr → Prop) (h1 : P .lbSol) (h2 : P .lbLeft) (h3 : P .lbEol)
    (h4 : P .lbRight) (h5 : P .lbBs) (h6 : P .lbKill) (h7 : P .lbDel)
    (h8 : b.getLsbD 7 = true → P (.lbDrop b)) (h9 : isInsertable b = true → P (.lbIns b)) :
    P (decodeConsole b) := by
  unfold decodeConsole
  split_ifs with _ _ _ _ _ _ _ h
  exacts [h1, h2, h3, h4, h5, h6, h7, h8 h, h9 (by simp_all [isInsertable, isControlCode])]

/-- A console byte selects no sequence. -/
theorem decodeConsole_ne_seq (b : Byte) (bs : List Byte) : decodeConsole b ≠ .lbSeq bs := by
  unfold decodeConsole
  split_ifs <;> simp

/-- A byte given to `process_char` selects no sequence. -/
theorem decodeChar_ne_seq (bs : List Byte) : decodeChar p b ≠ .ok (.lbSeq bs) := by
  unfold decodeChar
  split_ifs <;> simp

/-- A byte given to `process_char` selects no `RESET`. -/
theorem decodeChar_ne_reset (h : decodeChar p b = .ok i) : i ≠ .reset := by
  rintro rfl
  unfold decodeChar at h
  split_ifs at h <;> cases h

/-- Only a call of `process_sequence` decodes to a sequence, and to its own bytes (R105). -/
theorem decode_eq_seq {e : EntryPoint} {bs cs : List Byte} (h : decode p e bs = .ok (.lbSeq cs)) :
    e = .processSequence ∧ bs = cs := by
  unfold decode at h
  split at h <;> first
    | exact absurd h (decodeChar_ne_seq _)
    | exact absurd (Except.ok.inj h) (decodeConsole_ne_seq _ _)
    | simp_all

end Sys2Proof
end

