-- ==== Sys2Proof/Laws/State.lean ====
section
/-! SUPPORT. One lemma per field per update of the state, all true by definition, so that no proof
unfolds a record update. -/

namespace Sys2Proof.Machine

@[simp] theorem State.withDec_params (s : State) (d : Decoder) : (s.withDec d).params = s.params := rfl
@[simp] theorem State.withDec_dec (s : State) (d : Decoder) : (s.withDec d).dec = d := rfl
@[simp] theorem State.withDec_line (s : State) (d : Decoder) : (s.withDec d).line = s.line := rfl
@[simp] theorem State.withDec_queue (s : State) (d : Decoder) : (s.withDec d).queue = s.queue := rfl
@[simp] theorem State.withDec_rcInput (s : State) (d : Decoder) : (s.withDec d).rcInput = s.rcInput := rfl
@[simp] theorem State.withDec_console (s : State) (d : Decoder) : (s.withDec d).console = s.console := rfl
@[simp] theorem State.withDec_pending (s : State) (d : Decoder) : (s.withDec d).pending = s.pending := rfl
@[simp] theorem State.withDec_result (s : State) (d : Decoder) : (s.withDec d).result = s.result := rfl
@[simp] theorem State.withDec_calls (s : State) (d : Decoder) : (s.withDec d).calls = s.calls := rfl

@[simp] theorem State.withLine_params (s : State) (l : LineBuffer) : (s.withLine l).params = s.params := rfl
@[simp] theorem State.withLine_dec (s : State) (l : LineBuffer) : (s.withLine l).dec = s.dec := rfl
@[simp] theorem State.withLine_line (s : State) (l : LineBuffer) : (s.withLine l).line = l := rfl
@[simp] theorem State.withLine_queue (s : State) (l : LineBuffer) : (s.withLine l).queue = s.queue := rfl
@[simp] theorem State.withLine_rcInput (s : State) (l : LineBuffer) : (s.withLine l).rcInput = s.rcInput := rfl
@[simp] theorem State.withLine_console (s : State) (l : LineBuffer) : (s.withLine l).console = s.console := rfl
@[simp] theorem State.withLine_pending (s : State) (l : LineBuffer) : (s.withLine l).pending = s.pending := rfl
@[simp] theorem State.withLine_result (s : State) (l : LineBuffer) : (s.withLine l).result = s.result := rfl
@[simp] theorem State.withLine_calls (s : State) (l : LineBuffer) : (s.withLine l).calls = s.calls := rfl

@[simp] theorem State.withQueue_params (s : State) (q : List Byte) : (s.withQueue q).params = s.params := rfl
@[simp] theorem State.withQueue_dec (s : State) (q : List Byte) : (s.withQueue q).dec = s.dec := rfl
@[simp] theorem State.withQueue_line (s : State) (q : List Byte) : (s.withQueue q).line = s.line := rfl
@[simp] theorem State.withQueue_queue (s : State) (q : List Byte) : (s.withQueue q).queue = q := rfl
@[simp] theorem State.withQueue_rcInput (s : State) (q : List Byte) : (s.withQueue q).rcInput = s.rcInput := rfl
@[simp] theorem State.withQueue_console (s : State) (q : List Byte) : (s.withQueue q).console = s.console := rfl
@[simp] theorem State.withQueue_pending (s : State) (q : List Byte) : (s.withQueue q).pending = s.pending := rfl
@[simp] theorem State.withQueue_result (s : State) (q : List Byte) : (s.withQueue q).result = s.result := rfl
@[simp] theorem State.withQueue_calls (s : State) (q : List Byte) : (s.withQueue q).calls = s.calls := rfl

@[simp] theorem State.withRcInput_params (s : State) (a : Answers) : (s.withRcInput a).params = s.params := rfl
@[simp] theorem State.withRcInput_dec (s : State) (a : Answers) : (s.withRcInput a).dec = s.dec := rfl
@[simp] theorem State.withRcInput_line (s : State) (a : Answers) : (s.withRcInput a).line = s.line := rfl
@[simp] theorem State.withRcInput_queue (s : State) (a : Answers) : (s.withRcInput a).queue = s.queue := rfl
@[simp] theorem State.withRcInput_rcInput (s : State) (a : Answers) : (s.withRcInput a).rcInput = a := rfl
@[simp] theorem State.withRcInput_console (s : State) (a : Answers) : (s.withRcInput a).console = s.console := rfl
@[simp] theorem State.withRcInput_pending (s : State) (a : Answers) : (s.withRcInput a).pending = s.pending := rfl
@[simp] theorem State.withRcInput_result (s : State) (a : Answers) : (s.withRcInput a).result = s.result := rfl
@[simp] theorem State.withRcInput_calls (s : State) (a : Answers) : (s.withRcInput a).calls = s.calls := rfl

@[simp] theorem State.withConsole_params (s : State) (a : Answers) : (s.withConsole a).params = s.params := rfl
@[simp] theorem State.withConsole_dec (s : State) (a : Answers) : (s.withConsole a).dec = s.dec := rfl
@[simp] theorem State.withConsole_line (s : State) (a : Answers) : (s.withConsole a).line = s.line := rfl
@[simp] theorem State.withConsole_queue (s : State) (a : Answers) : (s.withConsole a).queue = s.queue := rfl
@[simp] theorem State.withConsole_rcInput (s : State) (a : Answers) : (s.withConsole a).rcInput = s.rcInput := rfl
@[simp] theorem State.withConsole_console (s : State) (a : Answers) : (s.withConsole a).console = a := rfl
@[simp] theorem State.withConsole_pending (s : State) (a : Answers) : (s.withConsole a).pending = s.pending := rfl
@[simp] theorem State.withConsole_result (s : State) (a : Answers) : (s.withConsole a).result = s.result := rfl
@[simp] theorem State.withConsole_calls (s : State) (a : Answers) : (s.withConsole a).calls = s.calls := rfl

@[simp] theorem State.withPending_params (s : State) (p : List Stimulus) : (s.withPending p).params = s.params := rfl
@[simp] theorem State.withPending_dec (s : State) (p : List Stimulus) : (s.withPending p).dec = s.dec := rfl
@[simp] theorem State.withPending_line (s : State) (p : List Stimulus) : (s.withPending p).line = s.line := rfl
@[simp] theorem State.withPending_queue (s : State) (p : List Stimulus) : (s.withPending p).queue = s.queue := rfl
@[simp] theorem State.withPending_rcInput (s : State) (p : List Stimulus) : (s.withPending p).rcInput = s.rcInput := rfl
@[simp] theorem State.withPending_console (s : State) (p : List Stimulus) : (s.withPending p).console = s.console := rfl
@[simp] theorem State.withPending_pending (s : State) (p : List Stimulus) : (s.withPending p).pending = p := rfl
@[simp] theorem State.withPending_result (s : State) (p : List Stimulus) : (s.withPending p).result = s.result := rfl
@[simp] theorem State.withPending_calls (s : State) (p : List Stimulus) : (s.withPending p).calls = s.calls := rfl

@[simp] theorem State.finish_params (s : State) (r : Result) (cs : List XcvrCall) : (s.finish r cs).params = s.params := rfl
@[simp] theorem State.finish_dec (s : State) (r : Result) (cs : List XcvrCall) : (s.finish r cs).dec = s.dec := rfl
@[simp] theorem State.finish_line (s : State) (r : Result) (cs : List XcvrCall) : (s.finish r cs).line = s.line := rfl
@[simp] theorem State.finish_queue (s : State) (r : Result) (cs : List XcvrCall) : (s.finish r cs).queue = s.queue := rfl
@[simp] theorem State.finish_rcInput (s : State) (r : Result) (cs : List XcvrCall) : (s.finish r cs).rcInput = s.rcInput := rfl
@[simp] theorem State.finish_console (s : State) (r : Result) (cs : List XcvrCall) : (s.finish r cs).console = s.console := rfl
@[simp] theorem State.finish_pending (s : State) (r : Result) (cs : List XcvrCall) : (s.finish r cs).pending = s.pending := rfl
@[simp] theorem State.finish_result (s : State) (r : Result) (cs : List XcvrCall) : (s.finish r cs).result = r := rfl
@[simp] theorem State.finish_calls (s : State) (r : Result) (cs : List XcvrCall) : (s.finish r cs).calls = cs := rfl

@[simp] theorem State.construct_params (s : State) : s.construct.params = s.params := rfl
@[simp] theorem State.construct_dec (s : State) : s.construct.dec = Decoder.reset := rfl
@[simp] theorem State.construct_line (s : State) : s.construct.line = LineBuffer.reset := rfl
@[simp] theorem State.construct_queue (s : State) : s.construct.queue = [] := rfl
@[simp] theorem State.construct_rcInput (s : State) : s.construct.rcInput = s.rcInput := rfl
@[simp] theorem State.construct_console (s : State) : s.construct.console = s.console := rfl
@[simp] theorem State.construct_pending (s : State) : s.construct.pending = s.pending := rfl

@[simp] theorem State.withSequence_params (bs : List Byte) (s : State) : (s.withSequence bs).params = s.params := rfl
@[simp] theorem State.withSequence_dec (bs : List Byte) (s : State) : (s.withSequence bs).dec = s.dec := rfl
@[simp] theorem State.withSequence_line (bs : List Byte) (s : State) : (s.withSequence bs).line = s.line := rfl
@[simp] theorem State.withSequence_queue (bs : List Byte) (s : State) : (s.withSequence bs).queue = s.queue := rfl
@[simp] theorem State.withSequence_rcInput (bs : List Byte) (s : State) : (s.withSequence bs).rcInput = s.rcInput := rfl
@[simp] theorem State.withSequence_console (bs : List Byte) (s : State) : (s.withSequence bs).console = s.console := rfl
@[simp] theorem State.withSequence_result (bs : List Byte) (s : State) : (s.withSequence bs).result = s.result := rfl
@[simp] theorem State.withSequence_calls (bs : List Byte) (s : State) : (s.withSequence bs).calls = s.calls := rfl
@[simp] theorem State.withSequence_pending (bs : List Byte) (s : State) :
    (s.withSequence bs).pending = bs.map .sequenceByte ++ s.pending := rfl

@[simp] theorem State.resetWith_params (p : Params) : (State.resetWith p).params = p := rfl
@[simp] theorem State.resetWith_dec (p : Params) : (State.resetWith p).dec = Decoder.reset := rfl
@[simp] theorem State.resetWith_line (p : Params) : (State.resetWith p).line = LineBuffer.reset := rfl
@[simp] theorem State.resetWith_queue (p : Params) : (State.resetWith p).queue = [] := rfl
@[simp] theorem State.resetWith_rcInput (p : Params) : (State.resetWith p).rcInput = Answers.quiet := rfl
@[simp] theorem State.resetWith_console (p : Params) : (State.resetWith p).console = Answers.quiet := rfl
@[simp] theorem State.resetWith_pending (p : Params) : (State.resetWith p).pending = [] := rfl
@[simp] theorem State.resetWith_result (p : Params) : (State.resetWith p).result = .nothing := rfl
@[simp] theorem State.resetWith_calls (p : Params) : (State.resetWith p).calls = [] := rfl

@[simp] theorem Decoder.sync_pos (d : Decoder) : d.sync.pos = 1 := rfl
@[simp] theorem Decoder.sync_acc (d : Decoder) : d.sync.acc = SbusFrame.zero := rfl
@[simp] theorem Decoder.sync_last (d : Decoder) : d.sync.last = d.last := rfl
@[simp] theorem Decoder.sync_lastValid (d : Decoder) : d.sync.lastValid = d.lastValid := rfl

@[simp] theorem Decoder.channelByte_pos (d : Decoder) (b : Byte) : (d.channelByte b).pos = d.pos + 1 := rfl
@[simp] theorem Decoder.channelByte_acc (d : Decoder) (b : Byte) : (d.channelByte b).acc = d.acc.orByte d.pos.toNat b := rfl
@[simp] theorem Decoder.channelByte_last (d : Decoder) (b : Byte) : (d.channelByte b).last = d.last := rfl
@[simp] theorem Decoder.channelByte_lastValid (d : Decoder) (b : Byte) : (d.channelByte b).lastValid = d.lastValid := rfl

@[simp] theorem Decoder.flagsByte_pos (d : Decoder) (b : Byte) : (d.flagsByte b).pos = 24 := rfl
@[simp] theorem Decoder.flagsByte_acc (d : Decoder) (b : Byte) : (d.flagsByte b).acc = d.acc.withFlags b := rfl
@[simp] theorem Decoder.flagsByte_last (d : Decoder) (b : Byte) : (d.flagsByte b).last = d.last := rfl
@[simp] theorem Decoder.flagsByte_lastValid (d : Decoder) (b : Byte) : (d.flagsByte b).lastValid = d.lastValid := rfl

@[simp] theorem Decoder.complete_pos (d : Decoder) : d.complete.pos = 0 := rfl
@[simp] theorem Decoder.complete_acc (d : Decoder) : d.complete.acc = d.acc := rfl
@[simp] theorem Decoder.complete_last (d : Decoder) : d.complete.last = d.acc := rfl
@[simp] theorem Decoder.complete_lastValid (d : Decoder) : d.complete.lastValid = true := rfl

@[simp] theorem Decoder.awaitSync_pos (d : Decoder) : d.awaitSync.pos = 0 := rfl
@[simp] theorem Decoder.awaitSync_acc (d : Decoder) : d.awaitSync.acc = d.acc := rfl
@[simp] theorem Decoder.awaitSync_last (d : Decoder) : d.awaitSync.last = d.last := rfl
@[simp] theorem Decoder.awaitSync_lastValid (d : Decoder) : d.awaitSync.lastValid = d.lastValid := rfl

@[simp] theorem Decoder.reset_pos : Decoder.reset.pos = 0 := rfl
@[simp] theorem Decoder.reset_acc : Decoder.reset.acc = SbusFrame.zero := rfl
@[simp] theorem Decoder.reset_last : Decoder.reset.last = SbusFrame.zero := rfl
@[simp] theorem Decoder.reset_lastValid : Decoder.reset.lastValid = false := rfl
@[simp] theorem LineBuffer.reset_buf : LineBuffer.reset.buf = [] := rfl
@[simp] theorem LineBuffer.reset_len : LineBuffer.reset.len = 0 := rfl
@[simp] theorem LineBuffer.reset_cur : LineBuffer.reset.cur = 0 := rfl

@[simp] theorem LineBuffer.startOfLine_buf (l : LineBuffer) : l.startOfLine.buf = l.buf := rfl
@[simp] theorem LineBuffer.startOfLine_len (l : LineBuffer) : l.startOfLine.len = l.len := rfl
@[simp] theorem LineBuffer.startOfLine_cur (l : LineBuffer) : l.startOfLine.cur = 0 := rfl
@[simp] theorem LineBuffer.endOfLine_buf (l : LineBuffer) : l.endOfLine.buf = l.buf := rfl
@[simp] theorem LineBuffer.endOfLine_len (l : LineBuffer) : l.endOfLine.len = l.len := rfl
@[simp] theorem LineBuffer.endOfLine_cur (l : LineBuffer) : l.endOfLine.cur = l.len := rfl
@[simp] theorem LineBuffer.killToEnd_buf (l : LineBuffer) : l.killToEnd.buf = l.buf := rfl
@[simp] theorem LineBuffer.killToEnd_len (l : LineBuffer) : l.killToEnd.len = l.cur := rfl
@[simp] theorem LineBuffer.killToEnd_cur (l : LineBuffer) : l.killToEnd.cur = l.cur := rfl

@[simp] theorem SbusFrame.withFlags_ch17 (f : SbusFrame) (b : Byte) : (f.withFlags b).ch17 = b.getLsbD 0 := rfl
@[simp] theorem SbusFrame.withFlags_ch18 (f : SbusFrame) (b : Byte) : (f.withFlags b).ch18 = b.getLsbD 1 := rfl
@[simp] theorem SbusFrame.withFlags_frameLost (f : SbusFrame) (b : Byte) : (f.withFlags b).frameLost = b.getLsbD 2 := rfl
@[simp] theorem SbusFrame.withFlags_failsafe (f : SbusFrame) (b : Byte) : (f.withFlags b).failsafe = b.getLsbD 3 := rfl
@[simp] theorem SbusFrame.withFlags_ch (f : SbusFrame) (b : Byte) : (f.withFlags b).ch = f.ch := rfl
@[simp] theorem SbusFrame.orChannel_ch17 (f : SbusFrame) (k : Nat) (v : Channel) : (f.orChannel k v).ch17 = f.ch17 := rfl
@[simp] theorem SbusFrame.orChannel_ch18 (f : SbusFrame) (k : Nat) (v : Channel) : (f.orChannel k v).ch18 = f.ch18 := rfl
@[simp] theorem SbusFrame.orChannel_frameLost (f : SbusFrame) (k : Nat) (v : Channel) : (f.orChannel k v).frameLost = f.frameLost := rfl
@[simp] theorem SbusFrame.orChannel_failsafe (f : SbusFrame) (k : Nat) (v : Channel) : (f.orChannel k v).failsafe = f.failsafe := rfl

@[simp] theorem State.withAnswers_params (s : State) (a : Option Answers) : (s.withAnswers a).params = s.params := by
  cases a <;> rfl
@[simp] theorem State.withAnswers_dec (s : State) (a : Option Answers) : (s.withAnswers a).dec = s.dec := by
  cases a <;> rfl
@[simp] theorem State.withAnswers_line (s : State) (a : Option Answers) : (s.withAnswers a).line = s.line := by
  cases a <;> rfl
@[simp] theorem State.withAnswers_queue (s : State) (a : Option Answers) : (s.withAnswers a).queue = s.queue := by
  cases a <;> rfl
@[simp] theorem State.withAnswers_rcInput (s : State) (a : Option Answers) : (s.withAnswers a).rcInput = s.rcInput := by
  cases a <;> rfl
@[simp] theorem State.withAnswers_pending (s : State) (a : Option Answers) : (s.withAnswers a).pending = s.pending := by
  cases a <;> rfl
@[simp] theorem State.withAnswers_result (s : State) (a : Option Answers) : (s.withAnswers a).result = s.result := by
  cases a <;> rfl
@[simp] theorem State.withAnswers_calls (s : State) (a : Option Answers) : (s.withAnswers a).calls = s.calls := by
  cases a <;> rfl
@[simp] theorem State.withAnswers_console (s : State) (a : Option Answers) :
    (s.withAnswers a).console = a.getD s.console := by
  cases a <;> rfl

@[simp] theorem State.load_params (s : State) (r : Request) (rest : List Stimulus) :
    (s.load r rest).params = s.params := by
  simp [State.load]
@[simp] theorem State.load_dec (s : State) (r : Request) (rest : List Stimulus) :
    (s.load r rest).dec = s.dec := by
  simp [State.load]
@[simp] theorem State.load_line (s : State) (r : Request) (rest : List Stimulus) :
    (s.load r rest).line = s.line := by
  simp [State.load]
@[simp] theorem State.load_queue (s : State) (r : Request) (rest : List Stimulus) :
    (s.load r rest).queue = s.queue := by
  simp [State.load]
@[simp] theorem State.load_rcInput (s : State) (r : Request) (rest : List Stimulus) :
    (s.load r rest).rcInput = s.rcInput := by
  simp [State.load]
@[simp] theorem State.load_result (s : State) (r : Request) (rest : List Stimulus) :
    (s.load r rest).result = s.result := by
  simp [State.load]
@[simp] theorem State.load_calls (s : State) (r : Request) (rest : List Stimulus) :
    (s.load r rest).calls = s.calls := by
  simp [State.load]
@[simp] theorem State.load_console (s : State) (r : Request) (rest : List Stimulus) :
    (s.load r rest).console = r.answers.getD s.console := by
  simp [State.load]
@[simp] theorem State.load_pending (s : State) (r : Request) (rest : List Stimulus) :
    (s.load r rest).pending = rest := by
  simp [State.load]

end Sys2Proof.Machine
end

