-- ==== Sys2Proof/Laws/Frames.lean ====
section
/-! SUPPORT. What the decoder's register operations do to the channels, bit by bit. -/

namespace Sys2Proof.Machine

variable {f : SbusFrame} {b : Byte} {k j o : Nat} {v : Channel}

@[simp] theorem SbusFrame.channel_zero : SbusFrame.zero.channel k = 0 := by
  simp [SbusFrame.channel, SbusFrame.zero, Vector.getElem?_replicate]
  split <;> rfl

@[simp] theorem SbusFrame.streamBit_zero : SbusFrame.zero.streamBit k = false := by
  simp [SbusFrame.streamBit]

@[simp] theorem SbusFrame.channel_withFlags : (f.withFlags b).channel k = f.channel k := rfl

@[simp] theorem SbusFrame.streamBit_withFlags : (f.withFlags b).streamBit k = f.streamBit k := rfl

/-- One channel is ORed with the value, every other is as it was. -/
theorem SbusFrame.channel_orChannel (h : j < 16) :
    (f.orChannel j v).channel k = if k = j then f.channel k ||| v else f.channel k := by
  simp only [SbusFrame.orChannel, SbusFrame.channel, Vector.getElem?_setIfInBounds]
  split_ifs with h1 h2 h2
  · subst h1; rfl
  · exact absurd h1.symm h2
  · exact absurd h2.symm h1
  · rfl

/-- Two frames are equal if their channels and flags are. -/
theorem SbusFrame.ext_channel {f g : SbusFrame} (h : ∀ k < 16, f.channel k = g.channel k)
    (h1 : f.ch17 = g.ch17) (h2 : f.ch18 = g.ch18) (h3 : f.frameLost = g.frameLost)
    (h4 : f.failsafe = g.failsafe) : f = g := by
  obtain ⟨fc, _, _, _, _⟩ := f
  obtain ⟨gc, _, _, _, _⟩ := g
  have hc : fc = gc := by
    refine Vector.ext fun i hi => ?_
    simpa [SbusFrame.channel, hi] using h i hi
  simp_all

/-- Bit `j` of the part of a byte that stays in channel `k` (R94). -/
theorem getLsbD_lowPart (hj : j < 11) :
    (lowPart b o).getLsbD j = (decide (o ≤ j) && b.getLsbD (j - o)) := by
  simp only [lowPart, shiftedByte, BitVec.getLsbD_extractLsb', BitVec.getLsbD_shiftLeft,
    BitVec.getLsbD_setWidth, Nat.zero_add, hj, decide_true, Bool.true_and]
  rw [show decide (j < 19) = true by simp; omega, show decide (j - o < 19) = true by simp; omega]
  by_cases h : j < o
  · simp [h, Nat.not_le.2 h]
  · simp [h, Nat.not_lt.1 h]

/-- Bit `j` of the part of a byte that is carried into channel `k+1` (R94). -/
theorem getLsbD_highPart (hj : j < 11) (ho : o ≤ 10) :
    (highPart b o).getLsbD j = b.getLsbD (11 + j - o) := by
  simp only [highPart, shiftedByte, BitVec.getLsbD_setWidth, BitVec.getLsbD_extractLsb',
    BitVec.getLsbD_shiftLeft, hj, decide_true, Bool.true_and]
  rw [show decide (11 + j < o) = false by simp; omega]
  by_cases h8 : j < 8
  · rw [show decide (11 + j < 19) = true by simp; omega,
      show decide (11 + j - o < 19) = true by simp; omega]
    simp [h8]
  · rw [show b.getLsbD (11 + j - o) = false from BitVec.getLsbD_of_ge _ _ (by omega)]
    simp [h8]

/-- Everything a data byte does to the channels: the eight stream bits of frame byte `p` are ORed with the
byte's, every other stream bit is as it was (R93, R133). -/
theorem SbusFrame.streamBit_orByte {p n : Nat} (hp : 1 ≤ p) (hp' : p ≤ 22) :
    (f.orByte p b).streamBit n =
      (f.streamBit n || (decide (8 * (p - 1) ≤ n) && decide (n < 8 * p)
        && b.getLsbD (n - 8 * (p - 1)))) := by
  have hk : channelIndex p * 11 + channelOffset p = 8 * (p - 1) := by
    unfold channelIndex channelOffset bitIndex; omega
  have ho : channelOffset p ≤ 10 := by unfold channelOffset; omega
  have hj : n % 11 < 11 := Nat.mod_lt _ (by omega)
  have hnn : n / 11 * 11 + n % 11 = n := by omega
  simp only [SbusFrame.streamBit, SbusFrame.orByte]
  generalize channelIndex p = K at *
  generalize channelOffset p = O at *
  generalize n % 11 = J at *
  generalize n / 11 = N at *
  have hK : K < 16 := by omega
  have hlow : ∀ g : SbusFrame, (((g.orChannel K (lowPart b O)).channel N).getLsbD J) =
      ((g.channel N).getLsbD J || (decide (N = K) && decide (O ≤ J) && b.getLsbD (J - O))) := by
    intro g
    rw [SbusFrame.channel_orChannel hK]
    by_cases h : N = K <;> simp [h, getLsbD_lowPart hj]
  by_cases h4 : 4 ≤ O
  · rw [if_pos h4, SbusFrame.channel_orChannel (by omega)]
    by_cases h1 : N = K + 1
    · rw [if_pos h1, BitVec.getLsbD_or, hlow, getLsbD_highPart hj ho,
        show 11 + J - O = n - 8 * (p - 1) by omega]
      by_cases hlt : n < 8 * p
      · simp [h1, hlt, show 8 * (p - 1) ≤ n by omega]
      · rw [BitVec.getLsbD_of_ge b (n - 8 * (p - 1)) (by omega)]
        simp [h1]
    · rw [if_neg h1, hlow]
      by_cases h : N = K
      · subst h
        by_cases hle : O ≤ J
        · rw [show J - O = n - 8 * (p - 1) by omega]
          simp [hle, show 8 * (p - 1) ≤ n by omega, show n < 8 * p by omega]
        · simp [hle, show ¬ 8 * (p - 1) ≤ n by omega]
      · have : ¬ (8 * (p - 1) ≤ n ∧ n < 8 * p) := by omega
        simp only [h, decide_false, Bool.false_and, Bool.or_false]
        by_cases h5 : 8 * (p - 1) ≤ n
        · simp [show ¬ n < 8 * p by omega]
        · simp [h5]
  · rw [if_neg h4, hlow]
    by_cases h : N = K
    · subst h
      by_cases hle : O ≤ J
      · rw [show J - O = n - 8 * (p - 1) by omega]
        by_cases hlt : n < 8 * p
        · simp [hle, show 8 * (p - 1) ≤ n by omega, hlt]
        · rw [BitVec.getLsbD_of_ge b (n - 8 * (p - 1)) (by omega)]
          simp
      · simp [hle, show ¬ 8 * (p - 1) ≤ n by omega]
    · simp only [h, decide_false, Bool.false_and, Bool.or_false]
      by_cases h5 : 8 * (p - 1) ≤ n
      · simp [show ¬ n < 8 * p by omega]
      · simp [h5]

@[simp] theorem SbusFrame.orByte_ch17 (p : Nat) : (f.orByte p b).ch17 = f.ch17 := by
  unfold SbusFrame.orByte; dsimp only; split_ifs <;> rfl

@[simp] theorem SbusFrame.orByte_ch18 (p : Nat) : (f.orByte p b).ch18 = f.ch18 := by
  unfold SbusFrame.orByte; dsimp only; split_ifs <;> rfl

@[simp] theorem SbusFrame.orByte_frameLost (p : Nat) : (f.orByte p b).frameLost = f.frameLost := by
  unfold SbusFrame.orByte; dsimp only; split_ifs <;> rfl

@[simp] theorem SbusFrame.orByte_failsafe (p : Nat) : (f.orByte p b).failsafe = f.failsafe := by
  unfold SbusFrame.orByte; dsimp only; split_ifs <;> rfl

/-- Two frames are equal if their stream bits and flags are. -/
theorem SbusFrame.ext_streamBit {f g : SbusFrame} (h : ∀ n < 176, f.streamBit n = g.streamBit n)
    (h1 : f.ch17 = g.ch17) (h2 : f.ch18 = g.ch18) (h3 : f.frameLost = g.frameLost)
    (h4 : f.failsafe = g.failsafe) : f = g := by
  refine SbusFrame.ext_channel (fun k hk => BitVec.eq_of_getLsbD_eq fun j hj => ?_) h1 h2 h3 h4
  have := h (11 * k + j) (by omega)
  rwa [SbusFrame.streamBit, SbusFrame.streamBit, show (11 * k + j) / 11 = k by omega,
    show (11 * k + j) % 11 = j by omega] at this

end Sys2Proof.Machine
end

