-- ==== Sys2Proof/Laws/Memory.lean ====
section
/-! SUPPORT. The laws of the byte store: a read after a write, and the canonical form that every
operation keeps. -/

namespace Sys2Proof.Machine

variable {m : Memory} {a b k n : Nat} {v w : Byte}

@[simp] theorem Memory.read_nil : Memory.read [] a = Memory.unlisted := rfl

@[simp] theorem Memory.read_cons_self : Memory.read ((a, v) :: m) a = v := by
  simp [Memory.read]

theorem Memory.read_cons_ne (h : k ≠ a) : Memory.read ((k, v) :: m) a = Memory.read m a := by
  simp [Memory.read, h]

/-- All listed indices lie above `k`. -/
abbrev Memory.Above (k : Nat) (m : Memory) : Prop :=
  ∀ c ∈ m, k < c.1

theorem Memory.wf_cons :
    Memory.wf ((k, v) :: m) = true ↔ v ≠ Memory.unlisted ∧ Memory.Above k m ∧ Memory.wf m = true := by
  simp [Memory.wf, Memory.Above, and_assoc]

theorem Memory.read_of_above (h : Memory.Above k m) (ha : a ≤ k) :
    Memory.read m a = Memory.unlisted := by
  induction m with
  | nil => rfl
  | cons c rest ih =>
    obtain ⟨c1, c2⟩ := c
    have hc : k < c1 := h (c1, c2) (by simp)
    rw [Memory.read_cons_ne (by omega)]
    exact ih fun x hx => h x (by simp [hx])

theorem Memory.read_consCell (hm : Memory.read m a = Memory.unlisted) :
    Memory.read (Memory.consCell a v m) b = if b = a then v else Memory.read m b := by
  unfold Memory.consCell
  split_ifs with hv hb hb
  · rw [hb, hm, hv]
  · rfl
  · rw [hb, Memory.read_cons_self]
  · rw [Memory.read_cons_ne (Ne.symm hb)]

/-- A write sets the byte it names and leaves every other byte as it was. -/
theorem Memory.read_write (h : Memory.wf m = true) :
    Memory.read (Memory.write m a v) b = if b = a then v else Memory.read m b := by
  induction m with
  | nil => exact Memory.read_consCell rfl
  | cons c rest ih =>
    obtain ⟨c1, c2⟩ := c
    obtain ⟨-, hab, hr⟩ := Memory.wf_cons.1 h
    by_cases h1 : a < c1
    · rw [Memory.write, if_pos h1]
      refine Memory.read_consCell ?_
      rw [Memory.read_cons_ne (by omega)]
      exact Memory.read_of_above hab (by omega)
    · by_cases h2 : a = c1
      · subst h2
        rw [Memory.write, if_neg h1, if_pos rfl,
          Memory.read_consCell (Memory.read_of_above hab (by omega))]
        by_cases hb : b = a
        · rw [if_pos hb, if_pos hb]
        · rw [if_neg hb, if_neg hb, Memory.read_cons_ne (Ne.symm hb)]
      · rw [Memory.write, if_neg h1, if_neg h2]
        by_cases hb : b = c1
        · subst hb
          rw [Memory.read_cons_self, Memory.read_cons_self, if_neg (Ne.symm h2)]
        · rw [Memory.read_cons_ne (Ne.symm hb), Memory.read_cons_ne (Ne.symm hb), ih hr]

theorem Memory.mem_consCell {c : Host.Cell} (h : c ∈ Memory.consCell a v m) :
    c = (a, v) ∨ c ∈ m := by
  unfold Memory.consCell at h
  split_ifs at h
  · exact .inr h
  · simpa using h

theorem Memory.mem_write {c : Host.Cell} (h : c ∈ Memory.write m a v) : c = (a, v) ∨ c ∈ m := by
  induction m with
  | nil => exact Memory.mem_consCell h
  | cons d rest ih =>
    obtain ⟨d1, d2⟩ := d
    unfold Memory.write at h
    split_ifs at h
    · exact Memory.mem_consCell h
    · rcases Memory.mem_consCell h with h | h
      · exact .inl h
      · exact .inr (by simp [h])
    · rcases List.mem_cons.1 h with h | h
      · exact .inr (by simp [h])
      · rcases ih h with h | h
        · exact .inl h
        · exact .inr (by simp [h])

theorem Memory.wf_consCell (h : Memory.wf m = true) (ha : Memory.Above a m) :
    Memory.wf (Memory.consCell a v m) = true := by
  unfold Memory.consCell
  split_ifs with hv
  · exact h
  · exact Memory.wf_cons.2 ⟨hv, ha, h⟩

/-- A write keeps the canonical form. -/
theorem Memory.wf_write (h : Memory.wf m = true) : Memory.wf (Memory.write m a v) = true := by
  induction m with
  | nil => exact Memory.wf_consCell rfl (by simp [Memory.Above])
  | cons c rest ih =>
    obtain ⟨c1, c2⟩ := c
    obtain ⟨hv, hab, hr⟩ := Memory.wf_cons.1 h
    unfold Memory.write
    split_ifs with h1 h2
    · refine Memory.wf_consCell h fun x hx => ?_
      rcases List.mem_cons.1 hx with rfl | hx
      · exact h1
      · exact lt_trans h1 (hab x hx)
    · exact Memory.wf_consCell hr (h2 ▸ hab)
    · refine Memory.wf_cons.2 ⟨hv, fun x hx => ?_, ih hr⟩
      rcases Memory.mem_write hx with rfl | hx
      · exact lt_of_le_of_ne (Nat.le_of_not_lt h1) (Ne.symm h2)
      · exact hab x hx

/-- A block write keeps the canonical form. -/
theorem Memory.wf_writeBlock (vs : List Byte) (h : Memory.wf m = true) :
    Memory.wf (Memory.writeBlock m a vs) = true := by
  induction vs generalizing m a with
  | nil => exact h
  | cons v vs ih => exact ih (Memory.wf_write h)

/-- A block write sets the block's bytes and leaves every other byte as it was. -/
theorem Memory.read_writeBlock (vs : List Byte) (h : Memory.wf m = true) :
    Memory.read (Memory.writeBlock m a vs) b =
      if a ≤ b ∧ b < a + vs.length then vs.getD (b - a) 0 else Memory.read m b := by
  induction vs generalizing m a with
  | nil =>
    have : ¬(a ≤ b ∧ b < a + ([] : List Byte).length) := by simp
    rw [if_neg this]
    rfl
  | cons v vs ih =>
    show Memory.read (Memory.writeBlock (Memory.write m a v) (a + 1) vs) b = _
    rw [ih (Memory.wf_write h), Memory.read_write h]
    simp only [List.length_cons]
    by_cases hb : b = a
    · subst hb
      rw [if_neg (by omega), if_pos rfl, if_pos (by omega)]
      simp
    · by_cases hin : a + 1 ≤ b ∧ b < a + 1 + vs.length
      · rw [if_pos hin, if_pos (by omega)]
        obtain ⟨d, hd⟩ : ∃ d, b - a = d + 1 := ⟨b - a - 1, by omega⟩
        rw [hd, show b - (a + 1) = d by omega]
        simp
      · rw [if_neg hin, if_neg hb, if_neg (by omega)]

/-- No cell at or beyond `n` is listed. -/
abbrev Memory.Below (n : Nat) (m : Memory) : Prop :=
  ∀ c ∈ m, c.1 < n

theorem Memory.below_write (h : Memory.Below n m) (ha : a < n) :
    Memory.Below n (Memory.write m a v) := fun c hc => by
  rcases Memory.mem_write hc with rfl | hc
  · exact ha
  · exact h c hc

theorem Memory.below_writeBlock (vs : List Byte) (h : Memory.Below n m)
    (ha : a + vs.length ≤ n) : Memory.Below n (Memory.writeBlock m a vs) := by
  induction vs generalizing m a with
  | nil => exact h
  | cons v vs ih =>
    simp only [List.length_cons] at ha
    exact ih (Memory.below_write h (by omega)) (by omega)

@[simp] theorem Memory.length_readBlock : (Memory.readBlock m a n).length = n := by
  simp [Memory.readBlock]

@[simp] theorem Memory.getElem?_readBlock :
    (Memory.readBlock m a n)[k]? = if k < n then some (Memory.read m (a + k)) else none := by
  by_cases h : k < n <;> simp [Memory.readBlock, h]

theorem Memory.getD_readBlock (h : k < n) :
    (Memory.readBlock m a n).getD k 0 = Memory.read m (a + k) := by
  rw [List.getD_eq_getElem?_getD, Memory.getElem?_readBlock, if_pos h]
  rfl

/-- Two canonical stores that read alike are equal. -/
theorem Memory.ext {m₁ m₂ : Memory} (h₁ : Memory.wf m₁ = true) (h₂ : Memory.wf m₂ = true)
    (h : ∀ a, Memory.read m₁ a = Memory.read m₂ a) : m₁ = m₂ := by
  induction m₁ generalizing m₂ with
  | nil =>
    cases m₂ with
    | nil => rfl
    | cons c rest =>
      obtain ⟨k, v⟩ := c
      have := h k
      rw [Memory.read_nil, Memory.read_cons_self] at this
      exact absurd this.symm (Memory.wf_cons.1 h₂).1
  | cons c rest ih =>
    obtain ⟨k, v⟩ := c
    obtain ⟨hv, hab, hr⟩ := Memory.wf_cons.1 h₁
    cases m₂ with
    | nil =>
      have := h k
      rw [Memory.read_nil, Memory.read_cons_self] at this
      exact absurd this hv
    | cons d rest₂ =>
      obtain ⟨k₂, v₂⟩ := d
      obtain ⟨hv₂, hab₂, hr₂⟩ := Memory.wf_cons.1 h₂
      have hk : k = k₂ := by
        rcases lt_trichotomy k k₂ with hlt | heq | hgt
        · have := h k
          rw [Memory.read_cons_self, Memory.read_cons_ne (by omega),
            Memory.read_of_above hab₂ (by omega)] at this
          exact absurd this hv
        · exact heq
        · have := h k₂
          rw [Memory.read_cons_self, Memory.read_cons_ne (by omega),
            Memory.read_of_above hab (by omega)] at this
          exact absurd this.symm hv₂
      subst hk
      have hvv : v = v₂ := by simpa using h k
      subst hvv
      rw [ih hr hr₂ fun a => ?_]
      by_cases ha : a = k
      · subst ha
        rw [Memory.read_of_above hab (by omega), Memory.read_of_above hab₂ (by omega)]
      · have := h a
        rwa [Memory.read_cons_ne (Ne.symm ha), Memory.read_cons_ne (Ne.symm ha)] at this

end Sys2Proof.Machine
end

