-- ==== Sys2Proof/Laws/Line.lean ====
section
/-! SUPPORT. What the line buffer's operations do, cell by cell: one lemma for each that says
everything (`LineBuffer.backspace_spec` and so on), and the content as a list of cells. -/

namespace Sys2Proof.Machine

variable {l : LineBuffer} {n i : Nat} {b : Byte}

@[simp] theorem LineBuffer.content_length : l.content.length = l.len := by
  simp [LineBuffer.content]

@[simp] theorem LineBuffer.content_getElem? :
    l.content[i]? = if i < l.len then some (Memory.read l.buf i) else none := by
  simp [LineBuffer.content]

/-- A content is known by its length and its cells. -/
theorem LineBuffer.content_eq {s : List Byte} (hl : s.length = l.len)
    (h : ∀ i < l.len, s[i]? = some (Memory.read l.buf i)) : l.content = s := by
  refine List.ext_getElem? fun i => ?_
  rw [LineBuffer.content_getElem?]
  split_ifs with hi
  · exact (h i hi).symm
  · exact (List.getElem?_eq_none (by omega)).symm

theorem LineBuffer.left_spec :
    l.left.buf = l.buf ∧ l.left.len = l.len ∧ l.left.cur = l.cur - 1 := by
  unfold LineBuffer.left
  split_ifs with h
  · exact ⟨rfl, rfl, rfl⟩
  · exact ⟨rfl, rfl, by omega⟩

theorem LineBuffer.right_spec :
    l.right.buf = l.buf ∧ l.right.len = l.len ∧
      l.right.cur = if l.cur < l.len then l.cur + 1 else l.cur := by
  unfold LineBuffer.right
  split_ifs <;> exact ⟨rfl, rfl, rfl⟩

/-- Backspace with the cursor at 0. -/
theorem LineBuffer.backspace_zero (h : l.cur = 0) : l.backspace = l := by
  simp [LineBuffer.backspace, h]

/-- Backspace with a byte before the cursor: the index, the length, the cells, the canonical form. -/
theorem LineBuffer.backspace_spec (hc : 0 < l.cur) (hl : l.cur ≤ l.len)
    (hw : Memory.wf l.buf = true) :
    l.backspace.cur = l.cur - 1 ∧ l.backspace.len = l.len - 1 ∧
    (∀ a, Memory.read l.backspace.buf a =
      if l.cur - 1 ≤ a ∧ a + 1 < l.len then Memory.read l.buf (a + 1) else Memory.read l.buf a) ∧
    Memory.wf l.backspace.buf = true ∧
    (∀ n, l.len ≤ n → Memory.Below n l.buf → Memory.Below n l.backspace.buf) := by
  unfold LineBuffer.backspace
  rw [if_pos hc]
  refine ⟨rfl, rfl, fun a => ?_, Memory.wf_writeBlock _ hw, fun n hn hb => ?_⟩
  · show Memory.read (Memory.writeBlock _ _ _) a = _
    rw [Memory.read_writeBlock _ hw, Memory.length_readBlock]
    by_cases h : l.cur - 1 ≤ a ∧ a + 1 < l.len
    · rw [if_pos (by omega), if_pos h, Memory.getD_readBlock (by omega)]
      congr 1
      omega
    · rw [if_neg (by omega), if_neg h]
  · exact Memory.below_writeBlock _ hb (by simp; omega)

/-- Delete-forward at the end of the content. -/
theorem LineBuffer.deleteForward_end (h : l.len ≤ l.cur) : l.deleteForward = l := by
  simp [LineBuffer.deleteForward, Nat.not_lt.2 h]

/-- Delete-forward with a byte at the cursor. -/
theorem LineBuffer.deleteForward_spec (hc : l.cur < l.len) (hw : Memory.wf l.buf = true) :
    l.deleteForward.cur = l.cur ∧ l.deleteForward.len = l.len - 1 ∧
    (∀ a, Memory.read l.deleteForward.buf a =
      if l.cur ≤ a ∧ a + 1 < l.len then Memory.read l.buf (a + 1) else Memory.read l.buf a) ∧
    Memory.wf l.deleteForward.buf = true ∧
    (∀ n, l.len ≤ n → Memory.Below n l.buf → Memory.Below n l.deleteForward.buf) := by
  unfold LineBuffer.deleteForward
  rw [if_pos hc]
  refine ⟨rfl, rfl, fun a => ?_, Memory.wf_writeBlock _ hw, fun n hn hb => ?_⟩
  · show Memory.read (Memory.writeBlock _ _ _) a = _
    rw [Memory.read_writeBlock _ hw, Memory.length_readBlock]
    by_cases h : l.cur ≤ a ∧ a + 1 < l.len
    · rw [if_pos (by omega), if_pos h, Memory.getD_readBlock (by omega)]
      congr 1
      omega
    · rw [if_neg (by omega), if_neg h]
  · exact Memory.below_writeBlock _ hb (by simp; omega)

/-- An insert into a full buffer. -/
theorem LineBuffer.insert_full (h : n ≤ l.len) : l.insert n b = l := by
  simp [LineBuffer.insert, Nat.not_lt.2 h]

/-- An insert where there is room. -/
theorem LineBuffer.insert_spec (hn : l.len < n) (hl : l.cur ≤ l.len)
    (hw : Memory.wf l.buf = true) :
    (l.insert n b).cur = l.cur + 1 ∧ (l.insert n b).len = l.len + 1 ∧
    (∀ a, Memory.read (l.insert n b).buf a =
      if a = l.cur then b
      else if l.cur < a ∧ a ≤ l.len then Memory.read l.buf (a - 1) else Memory.read l.buf a) ∧
    Memory.wf (l.insert n b).buf = true ∧
    (Memory.Below n l.buf → Memory.Below n (l.insert n b).buf) := by
  unfold LineBuffer.insert
  rw [if_pos hn]
  refine ⟨rfl, rfl, fun a => ?_, Memory.wf_write (Memory.wf_writeBlock _ hw), fun hb => ?_⟩
  · show Memory.read (Memory.write _ _ _) a = _
    rw [Memory.read_write (Memory.wf_writeBlock _ hw), Memory.read_writeBlock _ hw,
      Memory.length_readBlock]
    by_cases ha : a = l.cur
    · rw [if_pos ha, if_pos ha]
    · rw [if_neg ha, if_neg ha]
      by_cases h : l.cur < a ∧ a ≤ l.len
      · rw [if_pos (by omega), if_pos h, Memory.getD_readBlock (by omega)]
        congr 1
        omega
      · rw [if_neg (by omega), if_neg h]
  · exact Memory.below_write (Memory.below_writeBlock _ hb (by simp; omega)) (by omega)

/-- `process` is the operation that the byte decodes to (R160, R101). -/
theorem LineBuffer.process_cases (P : LineBuffer → Prop) (h1 : P l.startOfLine) (h2 : P l.left)
    (h3 : P l.endOfLine) (h4 : P l.right) (h5 : P l.backspace) (h6 : P l.killToEnd)
    (h7 : P l.deleteForward) (h8 : P l) (h9 : b.getLsbD 7 = false → P (l.insert n b)) :
    P (l.process n b) := by
  unfold LineBuffer.process
  split_ifs with _ _ _ _ _ _ _ h
  exacts [h1, h2, h3, h4, h5, h6, h7, h8, h9 (by simpa using h)]

/-- What every single edit keeps, every sequence of edits keeps. -/
theorem LineBuffer.processAll_induct (P : LineBuffer → Prop)
    (hstep : ∀ l b, P l → P (l.process n b)) (bs : List Byte) (h : P l) :
    P (l.processAll n bs) := by
  induction bs generalizing l with
  | nil => exact h
  | cons b bs ih => exact ih (hstep l b h)

theorem LineBuffer.processAll_append (bs cs : List Byte) :
    l.processAll n (bs ++ cs) = (l.processAll n bs).processAll n cs := by
  induction bs generalizing l with
  | nil => rfl
  | cons b bs ih => exact ih

end Sys2Proof.Machine
end

