-- ==== Sys2Proof/Laws/Exec.lean ====
section
/-! SUPPORT. What an operation and a step can do: the inversion lemmas that later proofs cite instead
of unfolding `exec`, `issue` or `step`. -/

namespace Sys2Proof.Machine

variable {s t : State} {i : Instr}

/-- Enqueue succeeds where there is room and appends the byte (R192). -/
theorem enqueue_room {m : Nat} {q : List Byte} {b : Byte} (h : q.length < m) :
    enqueue m q b = some (q ++ [b]) := by
  simp [enqueue, h]

/-- Enqueue fails on a full queue (R192). -/
theorem enqueue_full {m : Nat} {q : List Byte} {b : Byte} (h : m ≤ q.length) :
    enqueue m q b = none := by
  simp [enqueue, Nat.not_lt.2 h]

/-- The transmit branch takes at most the oldest byte (R193, R197). -/
theorem State.drainedQueue_eq :
    s.drainedQueue = if s.console.transmitReady then s.queue.tail else s.queue := by
  unfold State.drainedQueue dequeue
  cases s.queue <;> simp

/-- The receive branch processes the delivered byte, if there is one (R194, R197). -/
theorem State.receivedLine_cases (P : LineBuffer → Prop) (h0 : P s.line)
    (h1 : ∀ v, P (s.line.process s.params.lbCapacity v)) : P s.receivedLine := by
  unfold State.receivedLine
  split_ifs
  · cases s.console.read.delivered with
    | none => exact h0
    | some v => exact h1 v
  · exact h0

/-- Everything an operation can do to the decoder, the line buffer, the queue and the stimuli to come;
the parameters and the answers it leaves alone. -/
theorem exec_cases (h : exec i s = .next t) :
    SameAnswers s t ∧
    (t.pending = s.pending ∨
      ∃ b bs, i = .lbSeq (b :: bs) ∧ t.pending = bs.map .sequenceByte ++ s.pending) ∧
    ((t.dec = s.dec ∧ t.line = s.line ∧ t.queue = s.queue) ∨
     (∃ b, t.line = s.line ∧ t.queue = s.queue ∧
       ((s.dec.pos = 0 ∧ i = .sbusSync ∧ t.dec = s.dec.sync) ∨
        (1 ≤ s.dec.pos ∧ s.dec.pos ≤ 22 ∧ i = .sbusChan b ∧ t.dec = s.dec.channelByte b) ∨
        (s.dec.pos = 23 ∧ i = .sbusFlags b ∧ t.dec = s.dec.flagsByte b) ∨
        (s.dec.pos = 24 ∧ i = .sbusTermOk ∧ t.dec = s.dec.complete) ∨
        ((i = .sbusTermBad b ∨ i = .sbusIdle) ∧ t.dec = s.dec.awaitSync))) ∨
     (t.dec = s.dec ∧ t.queue = s.queue ∧
       ((i = .lbSol ∧ t.line = s.line.startOfLine) ∨ (i = .lbLeft ∧ t.line = s.line.left) ∨
        (i = .lbEol ∧ t.line = s.line.endOfLine) ∨ (i = .lbRight ∧ t.line = s.line.right) ∨
        (i = .lbBs ∧ t.line = s.line.backspace) ∨ (i = .lbKill ∧ t.line = s.line.killToEnd) ∨
        (i = .lbDel ∧ t.line = s.line.deleteForward) ∨
        (∃ b, i = .lbIns b ∧ t.line = s.line.insert s.params.lbCapacity b) ∨
        (∃ b, i = .suiProcess b ∧ t.line = s.line.process s.params.lbCapacity b) ∨
        (∃ b bs, i = .lbSeq (b :: bs) ∧ t.line = s.line.process s.params.lbCapacity b))) ∨
     (∃ b, i = .suiWrite b ∧ t.dec = s.dec ∧ t.line = s.line ∧
        s.queue.length < s.params.oqCapacity ∧ t.queue = s.queue ++ [b]) ∨
     (i = .suiEvent ∧ t.dec = s.dec ∧ t.line = s.receivedLine ∧ t.queue = s.drainedQueue) ∨
     (i = .reset ∧ t.dec = Decoder.reset ∧ t.line = LineBuffer.reset ∧ t.queue = [])) := by
  cases i <;> simp only [exec] at h
  case sbusSync =>
    unfold execSbusSync at h; split_ifs at h with hp; cases h
    exact ⟨⟨rfl, rfl, rfl⟩, .inl rfl, .inr (.inl ⟨0, rfl, rfl, .inl ⟨hp, rfl, rfl⟩⟩)⟩
  case sbusSkip b =>
    unfold execSbusSkip at h; split_ifs at h; cases h
    exact ⟨⟨rfl, rfl, rfl⟩, .inl rfl, .inl ⟨rfl, rfl, rfl⟩⟩
  case sbusChan b =>
    unfold execSbusChan at h; split_ifs at h with hp; cases h
    exact ⟨⟨rfl, rfl, rfl⟩, .inl rfl, .inr (.inl ⟨b, rfl, rfl, .inr (.inl ⟨hp.1, hp.2, rfl, rfl⟩)⟩)⟩
  case sbusFlags b =>
    unfold execSbusFlags at h; split_ifs at h with hp; cases h
    exact ⟨⟨rfl, rfl, rfl⟩, .inl rfl, .inr (.inl ⟨b, rfl, rfl, .inr (.inr (.inl ⟨hp, rfl, rfl⟩))⟩)⟩
  case sbusTermOk =>
    unfold execSbusTermOk at h; split_ifs at h with hp; cases h
    exact ⟨⟨rfl, rfl, rfl⟩, .inl rfl,
      .inr (.inl ⟨0, rfl, rfl, .inr (.inr (.inr (.inl ⟨hp, rfl, rfl⟩)))⟩)⟩
  case sbusTermBad b =>
    unfold execSbusTermBad at h; split_ifs at h; cases h
    exact ⟨⟨rfl, rfl, rfl⟩, .inl rfl,
      .inr (.inl ⟨b, rfl, rfl, .inr (.inr (.inr (.inr ⟨.inl rfl, rfl⟩)))⟩)⟩
  case sbusIdle =>
    cases h
    exact ⟨⟨rfl, rfl, rfl⟩, .inl rfl,
      .inr (.inl ⟨0, rfl, rfl, .inr (.inr (.inr (.inr ⟨.inr rfl, rfl⟩)))⟩)⟩
  case suiWrite b =>
    unfold execSuiWrite at h
    split_ifs at h
    · cases h
      exact ⟨⟨rfl, rfl, rfl⟩, .inl rfl, .inl ⟨rfl, rfl, rfl⟩⟩
    · by_cases hq : s.queue.length < s.params.oqCapacity
      · rw [enqueue_room hq] at h
        cases h
        exact ⟨⟨rfl, rfl, rfl⟩, .inl rfl, .inr (.inr (.inr (.inl ⟨b, rfl, rfl, rfl, hq, rfl⟩)))⟩
      · rw [enqueue_full (Nat.not_lt.1 hq)] at h
        cases h
        exact ⟨⟨rfl, rfl, rfl⟩, .inl rfl, .inl ⟨rfl, rfl, rfl⟩⟩
  case suiEvent =>
    cases h
    exact ⟨⟨rfl, rfl, rfl⟩, .inl rfl, .inr (.inr (.inr (.inr (.inl ⟨rfl, rfl, rfl, rfl⟩))))⟩
  case reset =>
    cases h
    exact ⟨⟨rfl, rfl, rfl⟩, .inl rfl, .inr (.inr (.inr (.inr (.inr ⟨rfl, rfl, rfl, rfl⟩))))⟩
  case lbSeq bs =>
    cases bs with
    | nil => cases h; exact ⟨⟨rfl, rfl, rfl⟩, .inl rfl, .inl ⟨rfl, rfl, rfl⟩⟩
    | cons b bs =>
      cases h
      exact ⟨⟨rfl, rfl, rfl⟩, .inr ⟨b, bs, rfl, rfl⟩,
        .inr (.inr (.inl ⟨rfl, rfl, by simp [State.withLine, State.withSequence, State.withPending,
          State.finish]⟩))⟩
  all_goals
    cases h
    refine ⟨⟨rfl, rfl, rfl⟩, .inl rfl, ?_⟩
    first
      | exact .inl ⟨rfl, rfl, rfl⟩
      | exact .inr (.inr (.inl ⟨rfl, rfl, by simp [State.withLine, State.finish]⟩))

/-- Every operation but `RESET` runs as `exec` says. -/
theorem runOperation_of_ne (hi : i ≠ .reset) : runOperation i s = exec i s :=
  if_neg hi

/-- An operation of a run that completes is not `RESET`, and completes as `exec` says. -/
theorem runOperation_next (h : runOperation i s = .next t) : i ≠ .reset ∧ exec i s = .next t := by
  unfold runOperation at h
  split_ifs at h with hi
  exact ⟨hi, h⟩

/-- Everything a step can do. -/
theorem step_cases (h : step s = .next t) :
    (s.pending = [] ∧ t = s) ∨
    (∃ r rest i, s.pending = .call r :: rest ∧ r.context.mayIssue r.entry = true ∧
      decode s.dec.pos r.entry r.bytes = .ok i ∧ i ≠ .reset ∧ exec i (s.load r rest) = .next t) ∨
    (∃ a rest, s.pending = .enterSbus a :: rest ∧ t = enterSbusHandler a rest s) ∨
    (∃ rest, s.pending = .sbusIdleBranch :: rest ∧ t = sbusIdleBranch rest s) ∨
    (∃ b rest, s.pending = .sequenceByte b :: rest ∧
      exec (decodeConsole b) (s.withPending rest) = .next t) ∨
    (∃ a rest, s.pending = .enterConsole a :: rest ∧ t = enterConsoleHandler a rest s) ∨
    (∃ a b rest, s.pending = .overlapping a b :: rest ∧ conflict a.entry b.entry = false ∧
      t = (s.withPending (overlapOrder s.params a b ++ rest)).finish .nothing []) := by
  unfold step at h
  split at h
  · next hp => cases h; exact .inl ⟨hp, rfl⟩
  · next r rest hp =>
    refine .inr (.inl ?_)
    unfold issue at h
    split_ifs at h with hc
    cases hd : decode s.dec.pos r.entry r.bytes with
    | error e => rw [hd] at h; cases h
    | ok i =>
      rw [hd] at h
      obtain ⟨hi, h⟩ := runOperation_next h
      exact ⟨r, rest, i, hp, hc, hd, hi, h⟩
  · next a rest hp => cases h; exact .inr (.inr (.inl ⟨a, rest, hp, rfl⟩))
  · next rest hp => cases h; exact .inr (.inr (.inr (.inl ⟨rest, hp, rfl⟩)))
  · next b rest hp => exact .inr (.inr (.inr (.inr (.inl ⟨b, rest, hp, h⟩))))
  · next a rest hp => cases h; exact .inr (.inr (.inr (.inr (.inr (.inl ⟨a, rest, hp, rfl⟩)))))
  · next a b rest hp =>
    unfold scheduleOverlap at h
    split_ifs at h with hc
    cases h
    exact .inr (.inr (.inr (.inr (.inr (.inr ⟨a, b, rest, hp, by simpa using hc, rfl⟩)))))

/-- A call that the access discipline allows and that decodes runs its operation, `RESET` apart. -/
theorem step_call {r : Request} {rest : List Stimulus} (hp : s.pending = .call r :: rest)
    (hc : r.context.mayIssue r.entry = true) (hd : decode s.dec.pos r.entry r.bytes = .ok i)
    (hi : i ≠ .reset) : step s = exec i (s.load r rest) := by
  unfold step
  rw [hp]
  simp [issue, hc, hd, runOperation_of_ne hi]

/-- Only `LB.SEQ` puts stimuli before those to come. -/
theorem exec_pending (h : exec i s = .next t) (hi : ∀ bs, i ≠ .lbSeq bs) : t.pending = s.pending := by
  obtain ⟨-, hp | ⟨b, bs, rfl, -⟩, -⟩ := exec_cases h
  · exact hp
  · exact absurd rfl (hi _)

/-- The operation a console byte selects edits the line by that byte, and returns nothing (R160). -/
theorem exec_decodeConsole (b : Byte) (s : State) :
    exec (decodeConsole b) s =
      .next ((s.withLine (s.line.process s.params.lbCapacity b)).finish .nothing []) := by
  unfold decodeConsole LineBuffer.process
  split_ifs <;> rfl

end Sys2Proof.Machine
end

