-- ==== Sys2Proof/Laws/Invariants.lean ====
section
/-! SUPPORT. The shared operations keep the invariants of the block: one lemma per operation over the
decoder and over the line buffer. -/

namespace Sys2Proof.Machine

variable {d : Decoder} {l : LineBuffer} {n : Nat} {b : Byte}

theorem LineBuffer.reset_inv : LineBuffer.reset.Inv n := by
  simp [LineBuffer.Inv, LineBuffer.reset, Memory.wf]

theorem LineBuffer.startOfLine_inv (h : l.Inv n) : l.startOfLine.Inv n :=
  ⟨Nat.zero_le _, h.2⟩

theorem LineBuffer.endOfLine_inv (h : l.Inv n) : l.endOfLine.Inv n :=
  ⟨le_rfl, h.2⟩

theorem LineBuffer.killToEnd_inv (h : l.Inv n) : l.killToEnd.Inv n :=
  ⟨le_rfl, h.1.trans h.2.1, fun i hi => h.2.2.1 i (lt_of_lt_of_le hi h.1), h.2.2.2⟩

theorem LineBuffer.left_inv (h : l.Inv n) : l.left.Inv n := by
  obtain ⟨h1, h2, h3⟩ := l.left_spec
  refine ⟨?_, ?_, ?_, ?_, ?_⟩
  · rw [h2, h3]; exact (Nat.sub_le _ _).trans h.1
  · rw [h2]; exact h.2.1
  · rw [h1, h2]; exact h.2.2.1
  · rw [h1]; exact h.2.2.2.1
  · rw [h1]; exact h.2.2.2.2

theorem LineBuffer.right_inv (h : l.Inv n) : l.right.Inv n := by
  obtain ⟨h1, h2, h3⟩ := l.right_spec
  refine ⟨?_, ?_, ?_, ?_, ?_⟩
  · have := h.1
    rw [h2, h3]; split_ifs <;> omega
  · rw [h2]; exact h.2.1
  · rw [h1, h2]; exact h.2.2.1
  · rw [h1]; exact h.2.2.2.1
  · rw [h1]; exact h.2.2.2.2

theorem LineBuffer.backspace_inv (h : l.Inv n) : l.backspace.Inv n := by
  obtain ⟨hc, hn, ha, hw, hb⟩ := h
  by_cases h0 : l.cur = 0
  · rw [LineBuffer.backspace_zero h0]; exact ⟨hc, hn, ha, hw, hb⟩
  · obtain ⟨h1, h2, h3, h4, h5⟩ := LineBuffer.backspace_spec (by omega) hc hw
    refine ⟨by omega, by omega, fun i hi => ?_, h4, h5 n hn hb⟩
    rw [h3]
    split_ifs
    · exact ha _ (by omega)
    · exact ha _ (by omega)

theorem LineBuffer.deleteForward_inv (h : l.Inv n) : l.deleteForward.Inv n := by
  obtain ⟨hc, hn, ha, hw, hb⟩ := h
  by_cases h0 : l.cur < l.len
  · obtain ⟨h1, h2, h3, h4, h5⟩ := LineBuffer.deleteForward_spec h0 hw
    refine ⟨by omega, by omega, fun i hi => ?_, h4, h5 n hn hb⟩
    rw [h3]
    split_ifs
    · exact ha _ (by omega)
    · exact ha _ (by omega)
  · rw [LineBuffer.deleteForward_end (by omega)]; exact ⟨hc, hn, ha, hw, hb⟩

theorem LineBuffer.insert_inv (hb7 : b.getLsbD 7 = false) (h : l.Inv n) : (l.insert n b).Inv n := by
  obtain ⟨hc, hn, ha, hw, hb⟩ := h
  by_cases h0 : l.len < n
  · obtain ⟨h1, h2, h3, h4, h5⟩ := LineBuffer.insert_spec (b := b) h0 hc hw
    refine ⟨by omega, by omega, fun i hi => ?_, h4, h5 hb⟩
    rw [h3]
    split_ifs
    · exact hb7
    · exact ha _ (by omega)
    · exact ha _ (by omega)
  · rw [LineBuffer.insert_full (by omega)]; exact ⟨hc, hn, ha, hw, hb⟩

theorem LineBuffer.process_inv (h : l.Inv n) : (l.process n b).Inv n :=
  LineBuffer.process_cases (fun m => m.Inv n) (startOfLine_inv h) (left_inv h) (endOfLine_inv h)
    (right_inv h) (backspace_inv h) (killToEnd_inv h) (deleteForward_inv h) h
    fun hb => insert_inv hb h

theorem LineBuffer.processAll_inv (bs : List Byte) (h : l.Inv n) : (l.processAll n bs).Inv n :=
  LineBuffer.processAll_induct (fun m => m.Inv n) (fun _ _ hm => process_inv hm) bs h

theorem Decoder.reset_inv : Decoder.reset.Inv := by
  refine ⟨by decide, ⟨fun h => absurd h (by decide), fun h => absurd h (by decide)⟩, fun _ => rfl⟩

theorem Decoder.awaitSync_inv (h : d.Inv) : d.awaitSync.Inv := by
  refine ⟨by simp, ⟨fun h => ?_, fun h => ?_⟩, h.2.2⟩ <;> simp at h

theorem Decoder.complete_inv : d.complete.Inv := by
  refine ⟨by simp, ⟨fun h => ?_, fun h => ?_⟩, fun h => ?_⟩ <;> simp at h

theorem Decoder.sync_inv (h : d.Inv) : d.sync.Inv := by
  refine ⟨by simp, ⟨fun _ _ n _ _ => SbusFrame.streamBit_zero, fun _ _ => ?_⟩, h.2.2⟩
  exact ⟨rfl, rfl, rfl, rfl⟩

theorem Decoder.flagsByte_inv (h : d.Inv) : (d.flagsByte b).Inv := by
  refine ⟨by simp, ⟨fun _ h2 => ?_, fun _ h2 => ?_⟩, h.2.2⟩ <;> simp at h2

theorem Decoder.channelByte_inv (h1 : 1 ≤ d.pos) (h2 : d.pos ≤ 22) (h : d.Inv) :
    (d.channelByte b).Inv := by
  have h1' : 1 ≤ d.pos.toNat := by simpa [BitVec.le_def] using h1
  have h2' : d.pos.toNat ≤ 22 := by simpa [BitVec.le_def] using h2
  have hp : (d.channelByte b).pos.toNat = d.pos.toNat + 1 := by
    simp [BitVec.toNat_add]; omega
  obtain ⟨-, ⟨ht, hf⟩, hl⟩ := h
  refine ⟨by omega, ⟨fun _ h22 n hn hle => ?_, fun _ _ => ?_⟩, hl⟩
  · rw [hp] at h22 hle
    simp only [Decoder.channelByte_acc]
    rw [SbusFrame.streamBit_orByte h1' h2', ht h1' h2' n hn (by omega),
      show decide (n < 8 * d.pos.toNat) = false by simp; omega]
    simp
  · have := hf h1' (by omega)
    simpa [SbusFrame.FlagsClear] using this

end Sys2Proof.Machine
end

