-- ==== Sys2Proof/Laws/PerInstr.lean ====
section
/-! SUPPORT. Statements about every operation as syntax, one lemma per constructor of `Instr`. -/

namespace Sys2Proof.Laws

/-- The call that stands for an operation has a number of operand bytes its entry point takes (R105). -/
def EncodedOperands.Statement (i : Instr) : Prop :=
  (encode i).1.takes (encode i).2.length = true

theorem EncodedOperands.sbusSync : EncodedOperands.Statement (.sbusSync) := rfl
theorem EncodedOperands.sbusSkip (b : Byte) : EncodedOperands.Statement (.sbusSkip b) := rfl
theorem EncodedOperands.sbusChan (b : Byte) : EncodedOperands.Statement (.sbusChan b) := rfl
theorem EncodedOperands.sbusFlags (b : Byte) : EncodedOperands.Statement (.sbusFlags b) := rfl
theorem EncodedOperands.sbusTermOk : EncodedOperands.Statement (.sbusTermOk) := rfl
theorem EncodedOperands.sbusTermBad (b : Byte) : EncodedOperands.Statement (.sbusTermBad b) := rfl
theorem EncodedOperands.lbSol : EncodedOperands.Statement (.lbSol) := rfl
theorem EncodedOperands.lbLeft : EncodedOperands.Statement (.lbLeft) := rfl
theorem EncodedOperands.lbEol : EncodedOperands.Statement (.lbEol) := rfl
theorem EncodedOperands.lbRight : EncodedOperands.Statement (.lbRight) := rfl
theorem EncodedOperands.lbBs : EncodedOperands.Statement (.lbBs) := rfl
theorem EncodedOperands.lbKill : EncodedOperands.Statement (.lbKill) := rfl
theorem EncodedOperands.lbDel : EncodedOperands.Statement (.lbDel) := rfl
theorem EncodedOperands.lbDrop (b : Byte) : EncodedOperands.Statement (.lbDrop b) := rfl
theorem EncodedOperands.lbIns (b : Byte) : EncodedOperands.Statement (.lbIns b) := rfl
theorem EncodedOperands.sbusIdle : EncodedOperands.Statement (.sbusIdle) := rfl
theorem EncodedOperands.sbusRead : EncodedOperands.Statement (.sbusRead) := rfl
theorem EncodedOperands.sbusReadacc : EncodedOperands.Statement (.sbusReadacc) := rfl
theorem EncodedOperands.lbContent : EncodedOperands.Statement (.lbContent) := rfl
theorem EncodedOperands.lbSeq (bs : List Byte) : EncodedOperands.Statement (.lbSeq bs) := rfl
theorem EncodedOperands.suiWrite (b : Byte) : EncodedOperands.Statement (.suiWrite b) := rfl
theorem EncodedOperands.suiEvent : EncodedOperands.Statement (.suiEvent) := rfl
theorem EncodedOperands.suiProcess (b : Byte) : EncodedOperands.Statement (.suiProcess b) := rfl
theorem EncodedOperands.suiContent : EncodedOperands.Statement (.suiContent) := rfl
theorem EncodedOperands.reset : EncodedOperands.Statement (.reset) := rfl

/-- Every operation is selected at some position that is ever held (R22, R130). -/
def SelectedSomewhere.Statement (i : Instr) : Prop :=
  ∃ p : Position, p.toNat ≤ 24 ∧ i.selectedAt p = true

theorem SelectedSomewhere.sbusSync : SelectedSomewhere.Statement (.sbusSync) :=
  ⟨0, by decide, rfl⟩
theorem SelectedSomewhere.sbusSkip (b : Byte) : SelectedSomewhere.Statement (.sbusSkip b) :=
  ⟨0, by decide, rfl⟩
theorem SelectedSomewhere.sbusChan (b : Byte) : SelectedSomewhere.Statement (.sbusChan b) :=
  ⟨1, by decide, rfl⟩
theorem SelectedSomewhere.sbusFlags (b : Byte) : SelectedSomewhere.Statement (.sbusFlags b) :=
  ⟨23, by decide, rfl⟩
theorem SelectedSomewhere.sbusTermOk : SelectedSomewhere.Statement (.sbusTermOk) :=
  ⟨24, by decide, rfl⟩
theorem SelectedSomewhere.sbusTermBad (b : Byte) : SelectedSomewhere.Statement (.sbusTermBad b) :=
  ⟨24, by decide, rfl⟩
theorem SelectedSomewhere.lbSol : SelectedSomewhere.Statement (.lbSol) :=
  ⟨0, by decide, rfl⟩
theorem SelectedSomewhere.lbLeft : SelectedSomewhere.Statement (.lbLeft) :=
  ⟨0, by decide, rfl⟩
theorem SelectedSomewhere.lbEol : SelectedSomewhere.Statement (.lbEol) :=
  ⟨0, by decide, rfl⟩
theorem SelectedSomewhere.lbRight : SelectedSomewhere.Statement (.lbRight) :=
  ⟨0, by decide, rfl⟩
theorem SelectedSomewhere.lbBs : SelectedSomewhere.Statement (.lbBs) :=
  ⟨0, by decide, rfl⟩
theorem SelectedSomewhere.lbKill : SelectedSomewhere.Statement (.lbKill) :=
  ⟨0, by decide, rfl⟩
theorem SelectedSomewhere.lbDel : SelectedSomewhere.Statement (.lbDel) :=
  ⟨0, by decide, rfl⟩
theorem SelectedSomewhere.lbDrop (b : Byte) : SelectedSomewhere.Statement (.lbDrop b) :=
  ⟨0, by decide, rfl⟩
theorem SelectedSomewhere.lbIns (b : Byte) : SelectedSomewhere.Statement (.lbIns b) :=
  ⟨0, by decide, rfl⟩
theorem SelectedSomewhere.sbusIdle : SelectedSomewhere.Statement (.sbusIdle) :=
  ⟨0, by decide, rfl⟩
theorem SelectedSomewhere.sbusRead : SelectedSomewhere.Statement (.sbusRead) :=
  ⟨0, by decide, rfl⟩
theorem SelectedSomewhere.sbusReadacc : SelectedSomewhere.Statement (.sbusReadacc) :=
  ⟨0, by decide, rfl⟩
theorem SelectedSomewhere.lbContent : SelectedSomewhere.Statement (.lbContent) :=
  ⟨0, by decide, rfl⟩
theorem SelectedSomewhere.lbSeq (bs : List Byte) : SelectedSomewhere.Statement (.lbSeq bs) :=
  ⟨0, by decide, rfl⟩
theorem SelectedSomewhere.suiWrite (b : Byte) : SelectedSomewhere.Statement (.suiWrite b) :=
  ⟨0, by decide, rfl⟩
theorem SelectedSomewhere.suiEvent : SelectedSomewhere.Statement (.suiEvent) :=
  ⟨0, by decide, rfl⟩
theorem SelectedSomewhere.suiProcess (b : Byte) : SelectedSomewhere.Statement (.suiProcess b) :=
  ⟨0, by decide, rfl⟩
theorem SelectedSomewhere.suiContent : SelectedSomewhere.Statement (.suiContent) :=
  ⟨0, by decide, rfl⟩
theorem SelectedSomewhere.reset : SelectedSomewhere.Statement (.reset) :=
  ⟨0, by decide, rfl⟩

end Sys2Proof.Laws
end

