-- ==== Sys2Proof/Laws/Run.lean ====
section
/-! SUPPORT. Runs of stimuli: `settle` and `deliver`, the bytes of a sequence, what one byte of the RC-input UART does,
what a run of data bytes does to the accumulator's stream bits, and the stream bits of a packed frame. -/

namespace Sys2Proof.Machine

variable {s t u : State} {x : Stimulus} {xs ys : List Stimulus} {b : Byte} {bs : List Byte}
  {out out₁ out₂ : List Report} {i : Instr}

@[simp] theorem deliver_nil : deliver [] s = some ([], s) := rfl

/-- A state with no stimulus left is settled. -/
theorem settle_done (k : Nat) (h : s.pending = []) : settle k s = some ([], s) := by
  cases k <;> simp [settle, h]

/-- A state with a stimulus settles as the state after its step does. -/
theorem settle_step {k : Nat} (hp : s.pending ≠ []) (h : step s = .next t)
    (hs : settle k t = some (out, u)) : settle (k + 1) s = some ((t.result, t.calls) :: out, u) := by
  simp [settle, hp, h, hs]

theorem deliver_cons (h : settle x.work (s.withPending [x]) = some (out₁, t))
    (hs : deliver xs t = some (out₂, u)) : deliver (x :: xs) s = some (out₁ ++ out₂, u) := by
  simp [deliver, h, hs]

/-- A delivery that succeeds settles its first stimulus and delivers the rest. -/
theorem deliver_cons_inv (h : deliver (x :: xs) s = some (out, u)) :
    ∃ t o₁ o₂, settle x.work (s.withPending [x]) = some (o₁, t) ∧ deliver xs t = some (o₂, u) ∧
      out = o₁ ++ o₂ := by
  unfold deliver at h
  split at h
  · next o t ht =>
    obtain ⟨⟨o', v⟩, hv, he⟩ := Option.map_eq_some_iff.1 h
    cases he
    exact ⟨t, o, o', ht, hv, rfl⟩
  · cases h

/-- A call of any entry point but `process_sequence` is done in one step. -/
theorem step_call_pending {r : Request} (hr : r.entry ≠ .processSequence)
    (h : step (s.withPending [.call r]) = .next t) : t.pending = [] := by
  rcases step_cases h with ⟨hp, -⟩ | ⟨r', rest, i, hp, -, hd, -, he⟩ | ⟨_, _, hp, -⟩ | ⟨_, hp, -⟩ |
    ⟨_, _, hp, -⟩ | ⟨_, _, hp, -⟩ | ⟨_, _, _, hp, -⟩ <;> cases hp
  refine (exec_pending he fun bs hi => hr ?_).trans (State.load_pending _ _ _)
  exact (decode_eq_seq (hi ▸ hd)).1

/-- A call of any entry point but `process_sequence` is delivered by its one step. -/
theorem deliver_call {r : Request} (hr : r.entry ≠ .processSequence)
    (h : step (s.withPending [.call r]) = .next t) (hs : deliver xs t = some (out, u)) :
    deliver (.call r :: xs) s = some ((t.result, t.calls) :: out, u) :=
  deliver_cons (out₁ := [(t.result, t.calls)])
    (settle_step (by simp) h (settle_done _ (step_call_pending hr h))) hs

/-- Everything the bytes of a sequence do, one step each: they edit the line one after the other and
return nothing (R171). -/
theorem settle_sequence {k : Nat} (hk : bs.length ≤ k) (hp : s.pending = bs.map .sequenceByte) :
    ∃ u, settle k s = some (List.replicate bs.length (.nothing, []), u) ∧ u.pending = [] ∧
      u.line = s.line.processAll s.params.lbCapacity bs ∧ u.dec = s.dec ∧ u.queue = s.queue ∧
      SameAnswers s u := by
  induction bs generalizing s k with
  | nil => exact ⟨s, settle_done k hp, hp, rfl, rfl, rfl, rfl, rfl, rfl⟩
  | cons b bs ih =>
    obtain ⟨k, rfl⟩ : ∃ j, k = j + 1 := ⟨k - 1, by simp at hk; omega⟩
    have ht : step s = .next
        (((s.withPending (bs.map .sequenceByte)).withLine
          (s.line.process s.params.lbCapacity b)).finish .nothing []) := by
      unfold step
      rw [hp]
      exact exec_decodeConsole b _
    obtain ⟨u, hu, h1, h2, h3, h4, h5⟩ := ih (k := k) (s := ((s.withPending
      (bs.map .sequenceByte)).withLine (s.line.process s.params.lbCapacity b)).finish .nothing [])
      (by simpa using hk) rfl
    exact ⟨u, settle_step (by simp [hp]) ht hu, h1, h2, h3, h4, h5⟩

/-- A delivery is one part after the other. -/
theorem deliver_append (h₁ : deliver xs s = some (out₁, t)) (h₂ : deliver ys t = some (out₂, u)) :
    deliver (xs ++ ys) s = some (out₁ ++ out₂, u) := by
  induction xs generalizing s out₁ with
  | nil => cases h₁; exact h₂
  | cons x xs ih =>
    obtain ⟨v, o, o', hv, ho, rfl⟩ := deliver_cons_inv h₁
    rw [List.append_assoc]
    exact deliver_cons hv (ih ho)

/-- One byte of the RC-input UART runs the operation that position and byte select. -/
theorem step_char (hd : decodeChar s.dec.pos b = .ok i) :
    step (s.withPending [.call (charRequest b)]) = exec i (s.withPending []) :=
  step_call (s := s.withPending [.call (charRequest b)]) (r := charRequest b) (rest := []) rfl rfl hd
    (decodeChar_ne_reset hd)

/-- The sync byte at position 0. -/
theorem step_sync (h : s.dec.pos = 0) :
    ∃ t, step (s.withPending [.call (charRequest 0x0F)]) = .next t ∧
      t.result = .frameValid false ∧ t.calls = [] ∧ t.dec = s.dec.sync ∧ t.line = s.line ∧
      t.queue = s.queue := by
  rw [step_char (i := .sbusSync) (by simp [decodeChar, h])]
  exact ⟨_, if_pos h, rfl, rfl, rfl, rfl, rfl⟩

/-- A data byte at positions 1 to 22. -/
theorem step_data (h1 : 1 ≤ s.dec.pos.toNat) (h2 : s.dec.pos.toNat ≤ 22) :
    ∃ t, step (s.withPending [.call (charRequest b)]) = .next t ∧
      t.result = .frameValid false ∧ t.calls = [] ∧ t.dec = s.dec.channelByte b ∧
      t.line = s.line ∧ t.queue = s.queue := by
  have h0 : s.dec.pos ≠ 0 := fun e => by simp [e] at h1
  have hle : s.dec.pos ≤ 22 := by simpa [BitVec.le_def] using h2
  have hge : 1 ≤ s.dec.pos := by simpa [BitVec.le_def] using h1
  rw [step_char (i := .sbusChan b) (by rw [decodeChar, if_neg h0, if_pos hle])]
  exact ⟨_, if_pos ⟨hge, hle⟩, rfl, rfl, rfl, rfl, rfl⟩

/-- The flags byte at position 23. -/
theorem step_flags (h : s.dec.pos.toNat = 23) :
    ∃ t, step (s.withPending [.call (charRequest b)]) = .next t ∧
      t.result = .frameValid false ∧ t.calls = [] ∧ t.dec = s.dec.flagsByte b ∧
      t.line = s.line ∧ t.queue = s.queue := by
  have hp : s.dec.pos = 23 := BitVec.eq_of_toNat_eq h
  rw [step_char (i := .sbusFlags b) (by simp [decodeChar, hp])]
  exact ⟨_, if_pos hp, rfl, rfl, rfl, rfl, rfl⟩

/-- The terminator at position 24, good or bad. -/
theorem step_terminator (h : s.dec.pos.toNat = 24) :
    ∃ t, step (s.withPending [.call (charRequest b)]) = .next t ∧
      t.result = .frameValid (decide (b = 0x00)) ∧ t.calls = [] ∧
      t.dec = (if b = 0x00 then s.dec.complete else s.dec.awaitSync) ∧
      t.line = s.line ∧ t.queue = s.queue := by
  have hp : s.dec.pos = 24 := BitVec.eq_of_toNat_eq h
  by_cases hb : b = 0x00
  · rw [step_char (i := .sbusTermOk) (by simp [decodeChar, hp, hb])]
    refine ⟨_, if_pos hp, ?_⟩
    simp [hb]
  · rw [step_char (i := .sbusTermBad b) (by simp [decodeChar, hp]; simpa using hb)]
    refine ⟨_, if_pos hp, ?_⟩
    have hb' : ¬ b = 0#8 := by simpa using hb
    simp [hb']

theorem channelByte_pos {d : Decoder} (h : d.pos.toNat ≤ 22) :
    (d.channelByte b).pos.toNat = d.pos.toNat + 1 := by
  simp [BitVec.toNat_add]
  omega

/-- Everything a run of data bytes does, from position `p` up to position 23 at most: it reports false
each time, moves the position, ORs the bytes into the stream from bit `8*(p-1)` on, and touches nothing
else. -/
theorem deliver_data (h1 : 1 ≤ s.dec.pos.toNat) (h2 : s.dec.pos.toNat + bs.length ≤ 23) :
    ∃ t, deliver (sbusRx bs) s = some (List.replicate bs.length (.frameValid false, []), t) ∧
      t.dec.pos.toNat = s.dec.pos.toNat + bs.length ∧
      (∀ n, t.dec.acc.streamBit n = (s.dec.acc.streamBit n ||
        (decide (8 * (s.dec.pos.toNat - 1) ≤ n) &&
          (bs.getD ((n - 8 * (s.dec.pos.toNat - 1)) / 8) 0).getLsbD
            ((n - 8 * (s.dec.pos.toNat - 1)) % 8)))) ∧
      t.dec.acc.ch17 = s.dec.acc.ch17 ∧ t.dec.acc.ch18 = s.dec.acc.ch18 ∧
      t.dec.acc.frameLost = s.dec.acc.frameLost ∧ t.dec.acc.failsafe = s.dec.acc.failsafe ∧
      SameLatch s.dec t.dec ∧ t.line = s.line ∧ t.queue = s.queue := by
  induction bs generalizing s with
  | nil => exact ⟨s, rfl, rfl, by simp, rfl, rfl, rfl, rfl, ⟨rfl, rfl⟩, rfl, rfl⟩
  | cons b bs ih =>
    simp only [List.length_cons] at h2
    obtain ⟨t, ht, hr, hc, hd, hl, hq⟩ := step_data (b := b) h1 (by omega)
    have hp : t.dec.pos.toNat = s.dec.pos.toNat + 1 := by rw [hd, channelByte_pos (by omega)]
    obtain ⟨u, hu, hup, hus, f1, f2, f3, f4, ⟨g1, g2⟩, hul, huq⟩ := ih (s := t) (by omega) (by omega)
    refine ⟨u, ?_, by rw [hup, hp, List.length_cons]; omega, fun n => ?_, by simp [f1, hd],
      by simp [f2, hd], by simp [f3, hd], by simp [f4, hd], ⟨by simp [g1, hd], by simp [g2, hd]⟩,
      hul.trans hl, huq.trans hq⟩
    · have := deliver_call (r := charRequest b) (by simp [charRequest]) ht hu
      rwa [hr, hc] at this
    · rw [hus, hp, hd, Decoder.channelByte_acc, SbusFrame.streamBit_orByte h1 (by omega)]
      generalize s.dec.pos.toNat = p at *
      by_cases hlo : 8 * (p - 1) ≤ n
      · by_cases hhi : n < 8 * p
        · have e : n - 8 * (p - 1) < 8 := by omega
          rw [Nat.div_eq_of_lt e, Nat.mod_eq_of_lt e]
          simp [hlo, hhi, show ¬ 8 * p ≤ n by omega]
        · rw [show (n - 8 * (p - 1)) / 8 = (n - 8 * (p + 1 - 1)) / 8 + 1 by omega,
            show (n - 8 * (p - 1)) % 8 = (n - 8 * (p + 1 - 1)) % 8 by omega]
          simp [hhi, hlo, show 8 * p ≤ n by omega]
      · simp [hlo, show ¬ 8 * p ≤ n by omega]

/-- A whole frame: sync byte, 22 data bytes, flags byte and terminator. The accumulator's stream bits
are the data bytes' whatever it held before; a good terminator latches it. -/
theorem deliver_frame {data : List Byte} {fb x : Byte} (h0 : s.dec.pos = 0)
    (hlen : data.length = 22) :
    ∃ t, deliver (sbusRx (0x0F :: data ++ [fb, x])) s =
        some (frameReports (decide (x = 0x00)), t) ∧
      t.dec.pos = 0 ∧
      (∀ n < 176, t.dec.acc.streamBit n = (data.getD (n / 8) 0).getLsbD (n % 8)) ∧
      t.dec.acc.ch17 = fb.getLsbD 0 ∧ t.dec.acc.ch18 = fb.getLsbD 1 ∧
      t.dec.acc.frameLost = fb.getLsbD 2 ∧ t.dec.acc.failsafe = fb.getLsbD 3 ∧
      t.line = s.line ∧ t.queue = s.queue ∧
      (x = 0x00 → t.dec.last = t.dec.acc ∧ t.dec.lastValid = true) ∧
      (x ≠ 0x00 → SameLatch s.dec t.dec) := by
  obtain ⟨t1, e1, r1, c1, d1, l1, q1⟩ := step_sync h0
  have p1 : t1.dec.pos.toNat = 1 := by simp [d1]
  obtain ⟨t2, e2, p2, b2, -, -, -, -, g2, l2, q2⟩ :=
    deliver_data (bs := data) (s := t1) (by omega) (by omega)
  obtain ⟨t3, e3, r3, c3, d3, l3, q3⟩ := step_flags (b := fb) (s := t2) (by omega)
  obtain ⟨t4, e4, r4, c4, d4, l4, q4⟩ := step_terminator (b := x) (s := t3) (by simp [d3])
  have hacc : t4.dec.acc = t2.dec.acc.withFlags fb := by
    rw [d4]; split_ifs <;> simp [d3]
  refine ⟨t4, ?_, ?_, fun n hn => ?_, by simp [hacc], by simp [hacc], by simp [hacc],
    by simp [hacc], by rw [l4, l3, l2, l1], by rw [q4, q3, q2, q1], fun hx => ?_, fun hx => ?_⟩
  · have hx := deliver_call (r := charRequest x) (by simp [charRequest]) e4 (deliver_nil (s := t4))
    have hf := deliver_call (r := charRequest fb) (by simp [charRequest]) e3 hx
    have hd := deliver_append e2 hf
    have := deliver_call (r := charRequest 0x0F) (by simp [charRequest]) e1 hd
    rw [r1, c1, r3, c3, r4, c4, hlen] at this
    simpa [sbusRx, frameReports, List.replicate] using this
  · rw [d4]; split_ifs <;> rfl
  · rw [hacc, SbusFrame.streamBit_withFlags, b2, p1]
    simp [d1]
  · subst hx
    simp [d4]
  · rw [d4, if_neg hx]
    exact ⟨by simp [d3, g2.1, d1], by simp [d3, g2.2, d1]⟩

/-! ## The stream bits of a packed frame -/

theorem packWord_list (cs : List Nat) (h : ∀ v ∈ cs, v < 2048) (k j : Nat) (hj : j < 11) :
    (((List.range cs.length).map fun i => cs.getD i 0 <<< (11 * i)).sum).testBit (11 * k + j) =
      (cs.getD k 0).testBit j := by
  induction cs generalizing k with
  | nil => simp
  | cons v cs ih =>
    have hv : v < 2 ^ 11 := h v (by simp)
    rw [List.length_cons, List.range_succ_eq_map, List.map_cons, List.map_map, List.sum_cons]
    have e : ((fun i => (v :: cs).getD i 0 <<< (11 * i)) ∘ Nat.succ) =
        fun i => 2 ^ 11 * (cs.getD i 0 <<< (11 * i)) := by
      funext i
      simp only [Function.comp, Nat.succ_eq_add_one, List.getD_cons_succ, Nat.shiftLeft_eq]
      rw [show 11 * (i + 1) = 11 + 11 * i by omega, pow_add]
      ring
    rw [e, List.sum_map_mul_left]
    simp only [List.getD_cons_zero, Nat.mul_zero, Nat.shiftLeft_zero]
    rw [Nat.add_comm, Nat.testBit_two_pow_mul_add _ hv]
    cases k with
    | zero => simp [hj]
    | succ k =>
      rw [if_neg (by omega), show 11 * (k + 1) + j - 11 = 11 * k + j by omega,
        ih (fun w hw => h w (by simp [hw]))]
      simp

/-- Bit `11*k + j` of the packed word is bit `j` of channel `k` (R93, R109). -/
theorem testBit_packWord (f : SbusFrame) {n : Nat} (hn : n < 176) :
    (packWord f.ch).testBit n = f.streamBit n := by
  have hl := packWord_list (f.ch.toList.map BitVec.toNat)
    (fun v hv => by
      obtain ⟨w, -, rfl⟩ := List.mem_map.1 hv
      exact w.isLt) (n / 11) (n % 11) (Nat.mod_lt _ (by omega))
  rw [show 11 * (n / 11) + n % 11 = n by omega] at hl
  have hk : n / 11 < 16 := by omega
  have hg : ∀ i, (f.ch.toList.map BitVec.toNat).getD i 0 = (f.ch[i]?.getD 0).toNat := by
    intro i
    by_cases hi : i < 16
    · simp [List.getD, hi]
    · simp [List.getD, hi]
  simp only [hg, List.length_map, Vector.length_toList] at hl
  rw [packWord, hl]
  rfl

/-- Bit `i` of packed data byte `p` is stream bit `8*(p-1) + i` (R93, R109). -/
theorem getLsbD_packByte (f : SbusFrame) {p j : Nat} (hp : 1 ≤ p) (hp' : p ≤ 22) (hj : j < 8) :
    (packByte f.ch p).getLsbD j = f.streamBit (8 * (p - 1) + j) := by
  rw [← testBit_packWord f (by omega), packByte, BitVec.getLsbD_ofNat, Nat.testBit_shiftRight]
  simp [hj]

theorem getLsbD_packFlags (f : SbusFrame) :
    (packFlags f).getLsbD 0 = f.ch17 ∧ (packFlags f).getLsbD 1 = f.ch18 ∧
    (packFlags f).getLsbD 2 = f.frameLost ∧ (packFlags f).getLsbD 3 = f.failsafe := by
  obtain ⟨_, a, b, c, d⟩ := f
  cases a <;> cases b <;> cases c <;> cases d <;> simp [packFlags]

end Sys2Proof.Machine
end

