-- ==== Sys2Proof/Tests/Slice0.lean ====
section
/-! SUPPORT. The model's own tests: small fixed values whose expected results come from spec/ (the
examples of the operation rules and the vectors of 95_test_vectors.md, named in each comment), and for
every obligation with hypotheses a state and operands that meet them together. -/

namespace Sys2Proof.Tests

open Sys2Proof.Machine

/-! ## Helpers -/

/-- N = 8, M = 4. -/
def params8 : Params := ⟨8, 4, 3, 1, 2⟩

def fresh : State := State.resetWith params8

def atPos (p : Position) : State :=
  fresh.withDec { fresh.dec with pos := p }

/-- The accumulator with two channels set. -/
def atPosWith (p : Position) (k : Nat) (v : Channel) : State :=
  fresh.withDec { fresh.dec with pos := p, acc := SbusFrame.zero.orChannel k v }

/-- A line with the given text and cursor. -/
def line (text : List Byte) (cur : Nat) : State :=
  fresh.withLine ⟨Memory.writeBlock [] 0 text, text.length, cur⟩

def queued (q : List Byte) : State := fresh.withQueue q

/-- The console transceiver's answers: receive-ready, read, transmit-ready, write. -/
def answering (rxr : Bool) (rd : ReadAnswer) (txr : Bool) (wr : WriteAnswer) (s : State) : State :=
  s.withConsole ⟨false, txr, rxr, rd, wr⟩

/-- A part of the next state; `none` after a fault or a refusal. -/
def got {α : Type} (o : Host.Outcome State Fault Refusal) (f : State → α) : Option α :=
  match o with
  | .next t => some (f t)
  | .fault _ => none
  | .refused _ => none

def refusal (o : Host.Outcome State Fault Refusal) : Option Refusal :=
  match o with
  | .next _ => none
  | .fault _ => none
  | .refused r => some r

def edited (t : State) : List Byte × Nat := (t.line.content, t.line.cur)

def a_ : Byte := 0x61
def b_ : Byte := 0x62
def c_ : Byte := 0x63
def d_ : Byte := 0x64

/-! ## Ill-formed operands are refused by `wf` (R99, R101) -/

theorem test_wf_skip_refuses_sync : (Instr.sbusSkip 0x0F).wf = false := by decide
theorem test_wf_termBad_refuses_zero : (Instr.sbusTermBad 0x00).wf = false := by decide
theorem test_wf_drop_refuses_ascii : (Instr.lbDrop 0x7E).wf = false := by decide
theorem test_wf_ins_refuses_high : (Instr.lbIns 0x80).wf = false := by decide
theorem test_wf_ins_refuses_codes :
    ([0x01, 0x02, 0x05, 0x06, 0x08, 0x0B, 0x7F] : List Byte).all
      (fun b => !(Instr.lbIns b).wf) = true := by decide

/-! ## Decoding, from bytes written out from the encodings of 30_encoding.md -/

theorem test_decode_sync : decode 0 .processChar [0b00001111] = .ok .sbusSync := by decide
theorem test_decode_skip : decode 0 .processChar [0b00110011] = .ok (.sbusSkip 0x33) := by decide
theorem test_decode_chan : decode 22 .processChar [0b00001111] = .ok (.sbusChan 0x0F) := by decide
theorem test_decode_flags : decode 23 .processChar [0b00001100] = .ok (.sbusFlags 0x0C) := by decide
theorem test_decode_termOk : decode 24 .processChar [0b00000000] = .ok .sbusTermOk := by decide
theorem test_decode_termBad : decode 24 .processChar [0b00001111] = .ok (.sbusTermBad 0x0F) := by
  decide
theorem test_decode_sol : decode 0 .process [0b00000001] = .ok .lbSol := by decide
theorem test_decode_left : decode 0 .process [0b00000010] = .ok .lbLeft := by decide
theorem test_decode_eol : decode 0 .process [0b00000101] = .ok .lbEol := by decide
theorem test_decode_right : decode 0 .process [0b00000110] = .ok .lbRight := by decide
theorem test_decode_bs : decode 0 .process [0b00001000] = .ok .lbBs := by decide
theorem test_decode_kill : decode 0 .process [0b00001011] = .ok .lbKill := by decide
theorem test_decode_del : decode 0 .process [0b01111111] = .ok .lbDel := by decide
theorem test_decode_ins : decode 0 .process [0b01111110] = .ok (.lbIns 0x7E) := by decide
theorem test_decode_drop : decode 0 .process [0b10000000] = .ok (.lbDrop 0x80) := by decide
theorem test_decode_idle : decode 9 .processIdle [] = .ok .sbusIdle := by decide
theorem test_decode_read : decode 9 .readLast [] = .ok .sbusRead := by decide
theorem test_decode_readacc : decode 9 .readAcc [] = .ok .sbusReadacc := by decide
theorem test_decode_content : decode 9 .content [] = .ok .lbContent := by decide
theorem test_decode_seq : decode 9 .processSequence [0x61, 0x02] = .ok (.lbSeq [0x61, 0x02]) := by
  decide
theorem test_decode_write : decode 9 .write [0x01] = .ok (.suiWrite 0x01) := by decide
theorem test_decode_event : decode 9 .onEvent [] = .ok .suiEvent := by decide
theorem test_decode_uiProcess : decode 9 .uiProcess [0x01] = .ok (.suiProcess 0x01) := by decide
theorem test_decode_uiContent : decode 9 .uiContent [] = .ok .suiContent := by decide
theorem test_decode_reset : decode 9 .construct [] = .ok .reset := by decide
theorem test_decode_operandCount :
    decode 9 .write [] = .error (.operandCount .write 0) := by decide
theorem test_decode_position :
    decode 25 .processChar [0x00] = .error (.positionOutOfRange 25) := by decide

/-! ## The decoder's operations (examples of R131 to R139; vectors S-D11, S-D12) -/

theorem test_sync_clears :
    got (exec .sbusSync (atPosWith 0 3 0x155)) (fun t => (t.dec.acc.channel 3, t.dec.pos)) =
      some (0, 1) := by decide
theorem test_skip : got (exec (.sbusSkip 0x33) fresh) (fun t => (t.dec.pos, t.result)) =
    some (0, .frameValid false) := by decide
/-- R133's example: 0x0AC becomes 0x7AC and five bits carry. -/
theorem test_chan_carry :
    got (exec (.sbusChan 0xFF) (atPosWith 2 0 0x0AC))
      (fun t => (t.dec.acc.channel 0, t.dec.acc.channel 1, t.dec.pos)) =
      some (0x7AC, 0x01F, 3) := by decide
/-- S-D11i. -/
theorem test_chan_last :
    got (exec (.sbusChan 0xFF) (atPos 22)) (fun t => (t.dec.acc.channel 15, t.dec.pos)) =
      some (0x7F8, 23) := by decide
/-- R134's example. -/
theorem test_flags :
    got (exec (.sbusFlags 0x0C) (atPos 23)) (fun t =>
      (t.dec.acc.ch17, t.dec.acc.ch18, t.dec.acc.frameLost, t.dec.acc.failsafe, t.dec.pos)) =
      some (false, false, true, true, 24) := by decide
/-- S-D12g: bits 7 to 4 are ignored. -/
theorem test_flags_upper_ignored :
    got (exec (.sbusFlags 0xF0) (atPos 23)) (fun t => (t.dec.acc.ch17, t.dec.acc.failsafe)) =
      some (false, false) := by decide
theorem test_termOk_latches :
    got (exec .sbusTermOk (atPosWith 24 5 6)) (fun t =>
      (t.dec.last.channel 5, t.dec.lastValid, t.dec.pos, t.result)) =
      some (6, true, 0, .frameValid true) := by decide
/-- S-D12k: 0x0F at position 24 is a terminator, not a sync byte. -/
theorem test_termBad :
    got (exec (.sbusTermBad 0x0F) (atPos 24)) (fun t => (t.dec.pos, t.dec.lastValid, t.result)) =
      some (0, false, .frameValid false) := by decide
theorem test_chan_refused_at_zero :
    refusal (exec (.sbusChan 0x0F) fresh) = some .notSelected := by decide
/-- R137's example. -/
theorem test_idle : got (exec .sbusIdle (atPosWith 10 3 7)) (fun t =>
    (t.dec.pos, t.dec.acc.channel 3)) = some (0, 7) := by decide
/-- S-D19. -/
theorem test_read_before_any_frame :
    got (exec .sbusRead fresh) (fun t => t.result) = some (.lastFrame false SbusFrame.zero) := by
  decide
theorem test_readacc :
    got (exec .sbusReadacc (atPosWith 3 1 5)) (fun t => t.result) =
      some (.accFrame (SbusFrame.zero.orChannel 1 5)) := by decide

/-! ## The line buffer's operations (examples of R161 to R171; vectors L-D) -/

theorem test_sol : got (exec .lbSol (line [a_, b_, c_] 3)) edited = some ([a_, b_, c_], 0) := by
  decide
theorem test_left : got (exec .lbLeft (line [a_, b_, c_, d_] 2)) (fun t => t.line.cur) = some 1 := by
  decide
theorem test_left_clamps : got (exec .lbLeft (line [a_] 0)) (fun t => t.line.cur) = some 0 := by
  decide
theorem test_eol : got (exec .lbEol (line [a_, b_, c_, d_] 1)) (fun t => t.line.cur) = some 4 := by
  decide
theorem test_right : got (exec .lbRight (line [a_, b_, c_, d_] 1)) (fun t => t.line.cur) = some 2 := by
  decide
theorem test_right_clamps : got (exec .lbRight (line [a_, b_] 2)) (fun t => t.line.cur) = some 2 := by
  decide
theorem test_bs : got (exec .lbBs (line [a_, b_, c_] 1)) edited = some ([b_, c_], 0) := by decide
theorem test_bs_end : got (exec .lbBs (line [a_, b_, c_, d_] 4)) edited =
    some ([a_, b_, c_], 3) := by decide
/-- L-D7. -/
theorem test_kill : got (exec .lbKill (line [0x68, 0x65, 0x6C, 0x6C, 0x6F] 3)) edited =
    some ([0x68, 0x65, 0x6C], 3) := by decide
/-- L-D12. -/
theorem test_del : got (exec .lbDel (line [0x68, 0x65, 0x6C, 0x6C, 0x6F] 3)) edited =
    some ([0x68, 0x65, 0x6C, 0x6F], 3) := by decide
/-- R168's example. -/
theorem test_ins : got (exec (.lbIns 0x5F) (line [a_, b_, c_, d_] 2)) edited =
    some ([a_, b_, 0x5F, c_, d_], 3) := by decide
/-- L-D20: a full buffer refuses the insert and the cursor stays. -/
theorem test_ins_full :
    got (exec (.lbIns 0x58) { line [a_, b_, c_, d_] 2 with params := ⟨4, 4, 3, 1, 2⟩ }) edited =
      some ([a_, b_, c_, d_], 2) := by decide
theorem test_drop : got (exec (.lbDrop 0xC3) (line [0x68, 0x65] 2)) edited =
    some ([0x68, 0x65], 2) := by decide
theorem test_content : got (exec .lbContent (line [a_, b_, c_, d_] 2)) (fun t => t.result) =
    some (.text [0x61, 0x62, 0x63, 0x64]) := by decide
theorem witness_ContentReturnsTheTextAndChangesNothing :
    (line [a_, b_] 1).line.Inv (line [a_, b_] 1).params.lbCapacity ∧
    1 < (line [a_, b_] 1).line.len := by decide
/-- R171's example, its last two bytes: the first byte is processed, the second is still to come. -/
theorem test_seq :
    got (exec (.lbSeq [0x02, 0x5F]) (line [a_, b_, c_, d_] 3)) (fun t => (edited t, t.pending)) =
      some (([a_, b_, c_, d_], 2), [.sequenceByte 0x5F]) := by decide
/-- R171's example, its last byte in its own step. -/
theorem test_seq_last_byte :
    got (step ((line [a_, b_, c_, d_] 2).withPending [.sequenceByte 0x5F])) edited =
      some ([a_, b_, 0x5F, c_, d_], 3) := by decide

/-! ## The Serial UI's operations (vectors U-D) -/

/-- U-D5: a direct write overtakes the queue. -/
theorem test_write_direct :
    got (exec (.suiWrite 0x43) (answering false .error true .ok (queued [0x41, 0x42])))
      (fun t => (t.result, t.queue, writtenBytes t.calls)) =
      some (.ok, [0x41, 0x42], [0x43]) := by decide
/-- U-D3. -/
theorem test_write_would_block :
    got (exec (.suiWrite 0x45) (queued [0x41, 0x42, 0x43, 0x44])) (fun t => (t.result, t.queue)) =
      some (.wouldBlock, [0x41, 0x42, 0x43, 0x44]) := by decide
/-- U-D6: both branches in one event, receive first. -/
theorem test_event_both :
    got (exec .suiEvent (answering true (.byte 0x63) true .ok
        ((line [a_, b_] 2).withQueue [0x41, 0x42])))
      (fun t => (edited t, t.queue, t.calls)) =
      some (([a_, b_, c_], 3), [0x42],
        [.isReceiveReady .console true, .readByte .console (.byte 0x63),
          .isTransmitReady .console true, .writeByte .console 0x41 .ok]) := by decide
/-- U-D7 and U-D8: a failed read is swallowed, a dequeued byte whose write fails is lost. -/
theorem test_event_failures :
    got (exec .suiEvent (answering true .error true .error ((line [a_, b_] 2).withQueue [0x41])))
      (fun t => (edited t, t.queue)) = some (([a_, b_], 2), []) := by decide
theorem test_uiProcess : got (exec (.suiProcess 0x01) (line [a_, b_, c_] 3)) edited =
    some ([a_, b_, c_], 0) := by decide
theorem test_uiContent : got (exec .suiContent (line [0x6F, 0x6B] 2)) (fun t => t.result) =
    some (.text [0x6F, 0x6B]) := by decide
theorem test_reset :
    got (exec .reset ((atPosWith 7 3 9).withQueue [0x41])) (fun t => (t.dec, t.queue)) =
      some (Decoder.reset, []) := by decide

/-! ## The step: contexts, overlap, handlers, bare words -/

theorem test_step_wrong_context :
    refusal (step (fresh.withPending [.call { charRequest 0x0F with context := .foreground }])) =
      some (.wrongContext .foreground .processChar) := by decide
/-- R261: no run offers `RESET`. -/
theorem test_step_reset_refused :
    refusal (step ((atPos 7).withPending [.call ⟨.platform, .construct, [], none⟩])) =
      some .alreadyConstructed := by decide
theorem test_step_overlap :
    refusal (step (fresh.withPending [.overlapping (keyRequest 0x61) (keyRequest 0x62)])) =
      some .overlap := by decide
/-- R228: terminator and idle in one entry of the handler. -/
theorem test_sbus_handler_byte_before_idle :
    (steps 4 ((atPosWith 24 5 6).withPending
      [.enterSbus ⟨true, false, true, .byte 0x00, .wouldBlock⟩])).map
        (fun t => (t.dec.last.channel 5, t.dec.lastValid, t.dec.pos, t.pending)) =
      some (6, true, 0, []) := by decide
theorem test_step_passive : got (step fresh) (fun t => t.dec) = some Decoder.reset := by decide
theorem test_tableWord_sync : decodeTableWord 8 0x0F = some .sbusSync := by decide
theorem test_tableWord_del : decodeTableWord 8 0x7F = some .lbDel := by decide
theorem test_tableWord_none : decodeTableWord 16 0x0101 = none := by decide
theorem test_fetchWord_sync :
    got (step (State.reset.withFetchWord 8 0x0F)) (fun t => t.dec.pos) = some 1 := by decide
theorem test_fetchWord_ins :
    got (step (State.reset.withFetchWord 8 0x41)) (fun t => t.line.content) = some [0x41] := by
  decide

/-! ## Witnesses: the hypotheses of the obligations are met together -/

theorem witness_DecodeOfEncodeGivesTheOperationBack :
    (Instr.lbIns 0x7E).wf = true ∧ (Instr.lbIns 0x7E).selectedAt 31 = true ∧
    (Instr.sbusChan 0xFF).wf = true ∧ (Instr.sbusChan 0xFF).selectedAt 22 = true := by decide
theorem witness_DecodedOperationIsAdmittedSelectedAndItsOwnCall :
    decode 24 .processChar [0xFF] = .ok (.sbusTermBad 0xFF) := by decide
theorem witness_ProcessCharSelectsExactlyOneOperation : (24 : Position).toNat ≤ 24 := by decide
theorem witness_ProcessCharPerformsTheSelectedOperation :
    ((atPos 0).withPending [.call (charRequest 0x0F)]).dec.pos.toNat = 0 ∧
    ((atPos 0).withPending [.call (charRequest 0x0F)]).pending = [.call (charRequest 0x0F)] ∧
    (0x0E : Byte) ≠ 0x0F ∧ (atPos 1).dec.pos.toNat = 1 ∧ (atPos 22).dec.pos.toNat = 22 ∧
    (atPos 23).dec.pos.toNat = 23 ∧ (atPos 24).dec.pos.toNat = 24 ∧ (0x01 : Byte) ≠ 0x00 := by
  decide
theorem witness_ConsoleByteDecodesByItsClass :
    0x80 ≤ (0x80 : Byte).toNat ∧ (0x7E : Byte).toNat < 0x80 ∧
    (0x7E : Byte) ∉ ([0x01, 0x02, 0x05, 0x06, 0x08, 0x0B, 0x7F] : List Byte) := by decide
theorem witness_TableRowsDecodeAsTheRules : (0 : Position).toNat ≤ 24 := by decide
theorem witness_StepRunsTheDecodedOperation :
    (readRequest.context.mayIssue readRequest.entry) = true ∧
    (fresh.withPending [.call readRequest]).pending = .call readRequest :: [] ∧
    decode fresh.dec.pos readRequest.entry readRequest.bytes = .ok .sbusRead ∧
    Instr.sbusRead.wf = true := by decide
theorem witness_StepRefusesReset :
    Context.platform.mayIssue .construct = true ∧
    decode fresh.dec.pos .construct [] = .ok .reset ∧ Instr.reset.wf = true ∧
    Instr.sbusRead ≠ .reset := by decide
theorem witness_NoStepPerformsReset :
    (fresh.withPending [.call ⟨.platform, .construct, [], none⟩]).pending =
      .call ⟨.platform, .construct, [], none⟩ :: [] ∧
    (fresh.withPending [.call ⟨.console, .construct, [], none⟩]).pending =
      .call ⟨.console, .construct, [], none⟩ :: [] ∧
    (fresh.withPending [.overlapping readRequest ⟨.platform, .construct, [], none⟩]).pending =
      .overlapping readRequest ⟨.platform, .construct, [], none⟩ :: [] := by decide
theorem witness_OperationFromForbiddenContextIsRefused :
    (fresh.withPending [.call { readRequest with context := .sbusRx }]).pending =
      .call { readRequest with context := .sbusRx } :: [] ∧
    EntryPoint.readAcc ∈ [EntryPoint.processChar, .processIdle, .readAcc] ∧
    Context.console ≠ .sbusRx ∧ Context.sbusRx ≠ .foreground ∧ Context.foreground ≠ .console ∧
    EntryPoint.processSequence ∈
      [EntryPoint.write, .uiProcess, .uiContent, .process, .content, .processSequence] ∧
    Context.sbusRx ≠ .console ∧ Context.sbusRx ≠ .platform := by decide
theorem witness_CallWithWrongOperandCountIsRefused :
    Context.sbusRx.mayIssue .processChar = true ∧
    (fresh.withPending [.call { charRequest 0 with bytes := [0, 0] }]).pending =
      .call { charRequest 0 with bytes := [0, 0] } :: [] ∧
    EntryPoint.processChar.takes ([0, 0] : List Byte).length = false := by decide
theorem witness_OverlapOnOneSubBlockIsRefused :
    (fresh.withPending [.overlapping (charRequest 0) idleRequest]).pending =
      .overlapping (charRequest 0) idleRequest :: [] ∧
    (charRequest 0).entry ∈ [EntryPoint.processChar, .processIdle, .readAcc] ∧
    idleRequest.entry ∈ [EntryPoint.processChar, .processIdle, .readAcc] ∧
    (keyRequest 0).entry ∈ [EntryPoint.process, .content, .processSequence, .write, .onEvent,
      .uiProcess, .uiContent] := by decide
theorem witness_LockedReadIsDoneBeforeTheArrivingByte :
    (fresh.withPending [.overlapping readRequest (charRequest 0x0F)]).pending =
      .overlapping readRequest (charRequest 0x0F) :: [] := by decide
theorem witness_SbusBytePreemptsForegroundConsoleOperation :
    fresh.params.Legal ∧ ({ keyRequest 0x61 with context := .foreground } : Request).context =
      .foreground ∧
    (keyRequest 0x61).entry ∈
      [EntryPoint.process, .content, .processSequence, .write, .uiProcess, .uiContent] ∧
    (fresh.withPending [.overlapping { keyRequest 0x61 with context := .foreground }
      (charRequest 0x0F)]).pending = .overlapping { keyRequest 0x61 with context := .foreground }
      (charRequest 0x0F) :: [] := by decide
theorem witness_OperationCompletesExactlyWhereSelected :
    (Instr.sbusChan 0).selectedAt (atPos 22).dec.pos = true ∧
    (Instr.sbusChan 0).selectedAt (atPos 23).dec.pos = false := by decide
/-- A cleared accumulator meets the invariant at every position up to 24. -/
theorem atPos_inv (p : Position) (h : p.toNat ≤ 24) : (atPos p).Inv :=
  ⟨(by decide : params8.Legal), ⟨h, ⟨fun _ _ _ _ _ => SbusFrame.streamBit_zero, fun _ _ => ⟨rfl, rfl, rfl, rfl⟩⟩,
    fun _ => rfl⟩, LineBuffer.reset_inv, Nat.zero_le _⟩

theorem witness_EveryStepKeepsTheInvariant :
    ((atPos 3).withPending [.call (charRequest 0xFF)]).Inv ∧
    (got (step ((atPos 3).withPending [.call (charRequest 0xFF)])) fun t => t.dec.pos) = some 4 :=
  ⟨atPos_inv 3 (by decide), by decide⟩
theorem witness_InvariantHoldsAfterReset : params8.Legal := by decide
theorem witness_NoStepChangesTheParameters :
    (got (step (fresh.withPending [.call readRequest])) fun t => t.dec.pos) = some 0 := by decide
theorem witness_EachElementIsWrittenOnlyByItsOperations :
    (got (exec (.sbusChan 0xFF) (atPos 1)) fun t => (t.dec.acc.channel 0, t.dec.pos)) =
      some (0x0FF, 2) ∧
    (got (exec (.sbusFlags 0x01) (atPos 23)) fun t => t.dec.acc.ch17) = some true ∧
    (got (exec (.lbIns 0x61) fresh) fun t => t.line.len) = some 1 ∧
    (got (exec (.suiWrite 0x61) fresh) fun t => t.queue) = some [0x61] ∧
    (got (exec .sbusTermOk (atPos 24)) fun t => t.dec.lastValid) = some true := by decide
theorem witness_SkipIgnoresTheByte : (atPos 0).dec.pos = 0 ∧ (0x0E : Byte) ≠ 0x0F := by decide
theorem witness_SyncClearsTheAccumulator : (atPosWith 0 3 5).dec.pos = 0 := by decide
theorem witness_DataByteIsOredIntoItsStreamBits :
    1 ≤ (atPos 1).dec.pos.toNat ∧ (atPos 22).dec.pos.toNat ≤ 22 ∧
    1 ≤ (atPos 22).dec.pos.toNat := by decide
theorem witness_DataByteIsStoredUnderTheInvariant :
    (atPos 22).Inv ∧ 1 ≤ (atPos 22).dec.pos.toNat ∧ (atPos 22).dec.pos.toNat ≤ 22 :=
  ⟨atPos_inv 22 (by decide), by decide⟩
theorem witness_FlagsByteWritesTheFourFlags : (atPos 23).dec.pos = 23 := by decide
theorem witness_GoodTerminatorLatchesTheFrame : (atPos 24).dec.pos = 24 := by decide
theorem witness_BadTerminatorDropsTheFrame :
    (atPos 24).dec.pos = 24 ∧ (0x01 : Byte) ≠ 0x00 := by decide
theorem witness_CompletedFrameSurvivesSkipsAndIdles :
    (atPos 24).dec.pos = 24 ∧ ∀ x ∈ [Stimulus.call idleRequest, .call (charRequest 0x10)],
      x = .call idleRequest ∨ ∃ b, b ≠ 0x0F ∧ x = .call (charRequest b) := by
  refine ⟨by decide, fun x hx => ?_⟩
  rcases List.mem_cons.1 hx with rfl | hx
  · exact .inl rfl
  · exact .inr ⟨0x10, by decide, List.mem_singleton.1 hx⟩
theorem witness_ProcessCharReturnsTrueExactlyOnAGoodTerminator :
    ((atPos 24).withPending [.call (charRequest 0x00)]).pending = .call (charRequest 0x00) :: [] ∧
    (atPos 24).dec.pos.toNat ≤ 24 := by decide
theorem witness_AtMostOneFrameInTwentyFiveBytes :
    (atPos 24).dec.pos.toNat ≤ 24 ∧ (List.replicate 25 (0x00 : Byte)).length ≤ 25 := by decide
theorem witness_PackedFrameRoundTrips : (atPosWith 0 3 5).dec.pos = 0 := by decide
theorem witness_BadFrameIsDroppedAndTheNextDecodes :
    (atPos 0).dec.pos = 0 ∧ (List.replicate 23 (0x0F : Byte)).length = 23 ∧
    (0x04 : Byte) ≠ 0x00 := by decide
theorem witness_DecodedChannelsAreTheClosedForm : (atPosWith 0 3 5).dec.pos = 0 := by decide
theorem witness_NoResynchronisationInsideAFrame :
    (atPos 0).dec.pos = 0 ∧ (List.replicate 24 (0x0F : Byte)).length ≤ 24 ∧
    (List.replicate 23 (0x0F : Byte)).length ≤ 23 := by decide
theorem witness_OnlyAGoodTerminatorChangesTheLatch :
    (got (step ((atPosWith 24 5 6).withPending [.call (charRequest 0x00)])) fun t =>
      decide (SameLatch (atPosWith 24 5 6).dec t.dec)) = some false := by decide
theorem witness_CursorMovesClampAndKeepTheText :
    (line [a_, b_] 2).line.cur ≤ (line [a_, b_] 2).line.len ∧
    (line [a_, b_] 0).line.cur ≤ (line [a_, b_] 0).line.len := by decide
theorem witness_BackspaceRemovesTheByteBeforeTheCursor :
    (line [a_, b_] 2).line.Inv 8 ∧ 0 < (line [a_, b_] 2).line.cur ∧
    (line [a_, b_] 0).line.Inv 8 ∧ (line [a_, b_] 0).line.cur = 0 ∧
    (1 < (line [a_, b_] 2).line.cur - 1 ∨ (line [a_, b_] 2).line.len - 1 ≤ 1) := by decide
theorem witness_KillTruncatesAtTheCursor :
    (line [a_, b_] 0).line.cur ≤ (line [a_, b_] 0).line.len := by decide
theorem witness_DeleteForwardRemovesTheByteAtTheCursor :
    (line [a_, b_] 1).line.Inv 8 ∧ (line [a_, b_] 1).line.cur < (line [a_, b_] 1).line.len ∧
    (line [a_, b_] 2).line.Inv 8 ∧ (line [a_, b_] 2).line.cur = (line [a_, b_] 2).line.len ∧
    (0 < (line [a_, b_] 1).line.cur ∨ (line [a_, b_] 1).line.len - 1 ≤ 0) := by decide
theorem witness_InsertPutsTheByteAtTheCursorOrIsRefused :
    (line [a_, b_] 1).line.Inv (line [a_, b_] 1).params.lbCapacity ∧ isInsertable 0x00 = true ∧
    (line [a_, b_] 1).line.len < (line [a_, b_] 1).params.lbCapacity ∧
    (0 < (line [a_, b_] 1).line.cur ∨ (line [a_, b_] 1).line.len < 0) ∧
    (line [a_, b_, c_, d_, a_, b_, c_, d_] 1).line.Inv 8 ∧
    (line [a_, b_, c_, d_, a_, b_, c_, d_] 1).line.len = 8 ∧
    (line [a_, b_, c_, d_, a_, b_, c_, d_] 1).params.lbCapacity = 8 := by decide
theorem witness_HighByteIsDropped : 0x80 ≤ (0x80 : Byte).toNat := by decide
theorem witness_WriteSendsQueuesOrWouldBlock :
    (answering false .error true .ok fresh).console.transmitReady = true ∧
    (queued [1, 2, 3]).console.transmitReady = false ∧
    (queued [1, 2, 3]).queue.length < (queued [1, 2, 3]).params.oqCapacity ∧
    (queued [1, 2, 3, 4]).params.oqCapacity ≤ (queued [1, 2, 3, 4]).queue.length := by decide
theorem witness_WriteBlocksOnlyOnAFullQueue :
    (queued [1, 2, 3, 4]).queue.length ≤ (queued [1, 2, 3, 4]).params.oqCapacity := by decide
theorem witness_EventReceivesOneByteAndSendsOneByte :
    (answering true (.byte 0x63) true .ok (queued [1])).console.receiveReady = true ∧
    (answering true (.byte 0x63) true .ok (queued [1])).console.read = .byte 0x63 ∧
    (answering true (.byte 0x63) true .ok (queued [1])).console.transmitReady = true ∧
    (answering true (.byte 0x63) true .ok (queued [1])).queue = 1 :: [] ∧
    (queued [1]).console.receiveReady = false ∧ fresh.queue = [] ∧
    (answering true .error true .error (queued [1])).console.receiveReady = true ∧
    (answering true .error true .error (queued [1])).console.read = .error := by decide
/-- Ready with a failed read: no byte value is the one read. -/
theorem witness_EventWithAFailedRead :
    ∀ v, (answering true .error true .error (queued [1])).console.read ≠ .byte v := by
  intro v; simp [answering]
theorem witness_SequenceIsItsBytesOneByOne :
    (Context.console = .console ∨ Context.console = .foreground) ∧
    (Context.foreground = .console ∨ Context.foreground = .foreground) ∧
    [a_, 0x01] ≠ ([] : List Byte) ∧
    (deliver [.call { sequenceRequest [a_, b_, 0x02] with context := .foreground }] fresh).map
      (fun r => (edited r.2, r.1.length)) = some (([a_, b_], 1), 3) := by decide
theorem witness_SequenceGoesOutByteByByte :
    (fresh.withPending [.sequenceByte 0x61, .sbusIdleBranch]).pending =
      .sequenceByte 0x61 :: [.sbusIdleBranch] := by decide
theorem witness_EventsDrainTheQueueInOrder :
    [(⟨false, true, true, .byte 0x61, .error⟩ : Answers), ⟨false, true, false, .error, .ok⟩].length =
      (queued [1, 2]).queue.length ∧
    ∀ a ∈ [(⟨false, true, true, .byte 0x61, .error⟩ : Answers), ⟨false, true, false, .error, .ok⟩],
      a.transmitReady = true := by decide
theorem witness_TheTwoUartsDoNotInteract :
    (∀ x ∈ [Stimulus.call (charRequest 0x0F), .call (keyRequest 0x61)],
      x.isSbusCall = true ∨ x.isConsoleCall = true) ∧
    (∀ x ∈ [Stimulus.call (keyRequest 0x61), .call (charRequest 0x0F)],
      x.isSbusCall = true ∨ x.isConsoleCall = true) ∧
    [Stimulus.call (charRequest 0x0F), .call (keyRequest 0x61)].filter Stimulus.isSbusCall =
      [Stimulus.call (keyRequest 0x61), .call (charRequest 0x0F)].filter Stimulus.isSbusCall ∧
    [Stimulus.call (charRequest 0x0F), .call (keyRequest 0x61)].filter Stimulus.isConsoleCall =
      [Stimulus.call (keyRequest 0x61), .call (charRequest 0x0F)].filter Stimulus.isConsoleCall ∧
    ((deliver [Stimulus.call (charRequest 0x0F), .call (keyRequest 0x61)] fresh).map
      fun r => (r.2.dec.pos, r.2.line.len)) = some (1, 1) := by decide
theorem witness_SbusHandlerDecodesTheByteBeforeTheIdle :
    ((atPos 24).withPending [.enterSbus ⟨true, false, true, .byte 0x00, .ok⟩]).pending =
      .enterSbus ⟨true, false, true, .byte 0x00, .ok⟩ :: [] ∧
    (⟨true, false, true, .byte 0x00, .ok⟩ : Answers).lineIdle = true ∧
    (⟨false, false, true, .byte 0x00, .ok⟩ : Answers).lineIdle = false ∧
    (⟨false, false, true, .byte 0x00, .ok⟩ : Answers).receiveReady = true ∧
    (⟨false, false, true, .byte 0x00, .ok⟩ : Answers).read = .byte 0x00 ∧
    (atPos 24).dec.pos.toNat ≤ 24 ∧ (atPos 24).dec.pos = 24 := by decide
theorem witness_SbusHandlerWithoutAByteAppliesNoDecode :
    ((atPos 24).withPending [.enterSbus ⟨true, false, true, .error, .ok⟩]).pending =
      .enterSbus ⟨true, false, true, .error, .ok⟩ :: [] ∧
    (⟨true, false, true, .error, .ok⟩ : Answers).read = .error ∧
    (⟨true, false, true, .error, .ok⟩ : Answers).receiveReady = true ∧
    (⟨false, false, false, .error, .ok⟩ : Answers).receiveReady = false ∧
    (⟨true, false, true, .error, .ok⟩ : Answers).lineIdle = true ∧
    (⟨false, false, false, .error, .ok⟩ : Answers).lineIdle = false := by decide
theorem witness_ConsoleHandlerAppliesOneEvent :
    (fresh.withPending [.enterConsole Answers.quiet]).pending =
      .enterConsole Answers.quiet :: [] := by decide
theorem witness_EnteringAHandlerChangesNothingInTheBlock :
    (fresh.withPending [.enterSbus Answers.quiet]).pending = .enterSbus Answers.quiet :: [] := by
  decide

end Sys2Proof.Tests
end

/-! SUPPORT. The statements of spec/00_scope.md: what an operation and a step answer, and which calls are refused. -/

namespace Sys2Proof.Machine

variable {s t : State} {i : Instr} {r : Request} {rest : List Stimulus}

/-! ## Where an operation completes (R130) -/

/-- A selected operation completes: the byte operations of the decoder test the position that selects
them (R130), no other operation tests any. -/
theorem exec_completes (h : i.selectedAt s.dec.pos = true) : ∃ u, exec i s = .next u := by
  cases i with
  | sbusSync | sbusSkip | sbusChan | sbusFlags | sbusTermOk | sbusTermBad =>
    exact ⟨_, if_pos (by simpa [Instr.selectedAt] using h)⟩
  | lbSeq bs => cases bs <;> exact ⟨_, rfl⟩
  | suiWrite b =>
    simp only [exec, execSuiWrite]
    split_ifs
    · exact ⟨_, rfl⟩
    · cases enqueue s.params.oqCapacity s.queue b <;> exact ⟨_, rfl⟩
  | _ => exact ⟨_, rfl⟩

/-- Only a byte operation of the decoder can be unselected, and it is refused there (log 9). -/
theorem exec_notSelected (h : i.selectedAt s.dec.pos = false) : exec i s = .refused .notSelected := by
  cases i with
  | sbusSync | sbusSkip | sbusChan | sbusFlags | sbusTermOk | sbusTermBad =>
    exact if_neg (by simpa [Instr.selectedAt] using h)
  | _ => cases h

/-- `LB.SEQ` puts the bytes after its first before the stimuli to come (log 13). -/
theorem exec_lbSeq_pending {bs : List Byte} (h : exec (.lbSeq bs) s = .next t) :
    t.pending = bs.tail.map .sequenceByte ++ s.pending := by
  cases bs <;> cases h <;> rfl

/-- Settles O14: that the operation completes is `exec_completes`, what it then leaves alone is read off
`exec_cases`. -/
theorem operationCompletesExactlyWhereSelected :
    Obligations.OperationCompletesExactlyWhereSelected := by
  intro i s
  refine ⟨fun hsel => ?_, exec_notSelected⟩
  obtain ⟨t, ht⟩ := exec_completes hsel
  obtain ⟨hsame, -, -⟩ := exec_cases ht
  exact ⟨t, ht, hsame, exec_pending ht, fun bs hi => exec_lbSeq_pending (hi ▸ ht)⟩

/-! ## The parameters (R6) -/

/-- Settles O17: a step runs an operation, which keeps the parameters by `exec_cases`, or only rewrites
the stimuli, the answers and the outputs. -/
theorem noStepChangesTheParameters : Obligations.NoStepChangesTheParameters := by
  intro s t h
  rcases step_cases h with ⟨-, rfl⟩ | ⟨r, rest, i, -, -, -, -, hx⟩ | ⟨a, rest, -, rfl⟩ |
    ⟨rest, -, rfl⟩ | ⟨b, rest, -, hx⟩ | ⟨a, rest, -, rfl⟩ | ⟨a, b, rest, -, -, rfl⟩
  · rfl
  · obtain ⟨⟨hparams, -, -⟩, -, -⟩ := exec_cases hx
    exact hparams.trans (State.load_params s r rest)
  · rfl
  · rfl
  · obtain ⟨⟨hparams, -, -⟩, -, -⟩ := exec_cases hx
    exact hparams
  · rfl
  · rfl

/-! ## A call that runs (R5, R261) -/

/-- A step whose next stimulus is a call issues it. -/
theorem step_eq_issue (hp : s.pending = .call r :: rest) : step s = issue r rest s := by
  simp [step, hp]

/-- The state a call runs in differs in the stimuli to come and in the console's answers only. -/
theorem State.load_eq (s : State) (r : Request) (rest : List Stimulus) :
    s.load r rest = { s with pending := rest, console := r.answers.getD s.console } := by
  unfold State.load
  cases r.answers <;> rfl

/-- A call that decodes to `RESET` is refused, whoever may issue it (log 14). -/
theorem step_call_reset (hp : s.pending = .call r :: rest) (hc : r.context.mayIssue r.entry = true)
    (hd : decode s.dec.pos r.entry r.bytes = .ok .reset) : step s = .refused .alreadyConstructed := by
  simp [step_eq_issue hp, issue, hc, hd, runOperation]

/-- Settles O8, by `step_call` and `step_call_reset`. -/
theorem stepRunsTheDecodedOperation : Obligations.StepRunsTheDecodedOperation := by
  intro s r rest i hp hc hd _
  refine ⟨fun hi => ?_, fun hi => step_call_reset hp hc (hi ▸ hd)⟩
  rw [step_call hp hc hd hi, State.load_eq]

/-! ## A call that is refused (R238, R105) -/

/-- The rows of R238 that only the SBUS receive handler may issue. -/
theorem mayIssue_decoder {c : Context} {e : EntryPoint}
    (he : e ∈ [EntryPoint.processChar, .processIdle, .readAcc]) :
    c.mayIssue e = (c == .sbusRx) := by
  simp only [List.mem_cons, List.not_mem_nil, or_false] at he
  rcases he with rfl | rfl | rfl <;> rfl

/-- The rows of R238 that the console handler and the foreground may issue (log 10). -/
theorem mayIssue_serialUi {c : Context} {e : EntryPoint}
    (he : e ∈ [EntryPoint.write, .uiProcess, .uiContent, .process, .content, .processSequence]) :
    c.mayIssue e = (c == .console || c == .foreground) := by
  simp only [List.mem_cons, List.not_mem_nil, or_false] at he
  rcases he with rfl | rfl | rfl | rfl | rfl | rfl <;> rfl

/-- A call that its context may not issue is refused. -/
theorem step_wrongContext (hp : s.pending = .call r :: rest)
    (hc : r.context.mayIssue r.entry = false) :
    step s = .refused (.wrongContext r.context r.entry) := by
  simp [step_eq_issue hp, issue, hc]

/-- A call that decodes to no operation is refused. -/
theorem step_badCall {e : DecodeError} (hp : s.pending = .call r :: rest)
    (hc : r.context.mayIssue r.entry = true) (hd : decode s.dec.pos r.entry r.bytes = .error e) :
    step s = .refused (.badCall e) := by
  simp [step_eq_issue hp, issue, hc, hd]

/-- Settles O9: in every case the row of R238 for the entry point does not hold the context. -/
theorem operationFromForbiddenContextIsRefused :
    Obligations.OperationFromForbiddenContextIsRefused := by
  intro s r rest hp hforbidden
  refine step_wrongContext hp ?_
  rcases hforbidden with ⟨he, hc⟩ | ⟨he, hc⟩ | ⟨he, hc⟩ | ⟨he, hcon, hfg⟩ | ⟨he, hc⟩
  · simpa [mayIssue_decoder he] using hc
  · simpa [he, Context.mayIssue] using hc
  · simpa [he, Context.mayIssue] using hc
  · simpa [mayIssue_serialUi he] using ⟨hcon, hfg⟩
  · simpa [he, Context.mayIssue] using hc

/-- A number of operand bytes that the entry point does not take decodes to no operation (log 19). -/
theorem decode_operandCount {p : Position} {e : EntryPoint} {bs : List Byte}
    (h : e.takes bs.length = false) : decode p e bs = .error (.operandCount e bs.length) := by
  unfold decode
  split
  case h_13 => rfl
  all_goals cases h

/-- Settles O10, by `decode_operandCount`. -/
theorem callWithWrongOperandCountIsRefused : Obligations.CallWithWrongOperandCountIsRefused :=
  fun _ _ _ hp hc hcount => step_badCall hp hc (decode_operandCount hcount)

/-! ## Two operations at once (R78, R236) -/

/-- Two operations on different sub-blocks are put in the order of their priorities. -/
theorem step_overlapping {a b : Request} (hp : s.pending = .overlapping a b :: rest)
    (hc : conflict a.entry b.entry = false) :
    step s = .next ((s.withPending (overlapOrder s.params a b ++ rest)).finish .nothing []) := by
  simp [step, hp, scheduleOverlap, hc]

/-- The operation asked for goes first if its context's priority is the higher one. -/
theorem overlapOrder_preempts {p : Params} {a b : Request}
    (h : a.effectivePriority p < b.context.priority p) :
    overlapOrder p a b = [.call b, .call a] :=
  if_pos h

/-- The operations the foreground may issue on the Serial UI work on the line buffer and the queue (R35,
R76). -/
theorem subBlockOf_serialUi {e : EntryPoint}
    (he : e ∈ [EntryPoint.process, .content, .processSequence, .write, .uiProcess, .uiContent]) :
    subBlockOf e = .serialUi := by
  simp only [List.mem_cons, List.not_mem_nil, or_false] at he
  rcases he with rfl | rfl | rfl | rfl | rfl | rfl <;> rfl

/-- An operation of the Serial UI runs at its context's own priority: the ceiling is `SBUS.READ`'s. -/
theorem Request.effectivePriority_serialUi {p : Params} (he : subBlockOf r.entry = .serialUi) :
    r.effectivePriority p = r.context.priority p :=
  if_neg fun hread => by simp [hread, subBlockOf] at he

/-- Settles O13: the two do not conflict, and `PRIO_SBUS_RX > PRIO_CONSUMER` puts the byte first. -/
theorem sbusBytePreemptsForegroundConsoleOperation :
    Obligations.SbusBytePreemptsForegroundConsoleOperation := by
  rintro s r b rest ⟨-, -, hprio⟩ hfg hentry hp
  have hui : subBlockOf r.entry = .serialUi := subBlockOf_serialUi hentry
  have hfree : conflict r.entry (charRequest b).entry = false := by
    rw [conflict, hui]; rfl
  have hlower : r.effectivePriority s.params < (charRequest b).context.priority s.params := by
    rw [Request.effectivePriority_serialUi hui, hfg]
    exact hprio
  refine ⟨_, step_overlapping hp hfree, ⟨rfl, rfl, rfl, rfl⟩, ?_⟩
  simp [overlapOrder_preempts hlower]

end Sys2Proof.Machine

/-! SUPPORT. The statements of spec/10_state.md: the invariant of the block, which operation writes which
element of the state, and the results that no operation reads. -/

namespace Sys2Proof

variable {p : Position} {e : EntryPoint} {b : Byte} {bs : List Byte} {i : Instr}

/-! ## What decodes is an admitted operation (R98, R101) -/

/-- The tests on the byte that tell the operations of one position apart are those of `Instr.wf`. -/
theorem decodeChar_wf (h : decodeChar p b = .ok i) : i.wf = true := by
  rcases decodeChar_cases h with ⟨-, -, rfl⟩ | ⟨-, hb, rfl⟩ | ⟨-, -, rfl⟩ | ⟨-, rfl⟩ |
    ⟨-, -, rfl⟩ | ⟨-, hb, rfl⟩
  case inr.inl => simpa [Instr.wf] using hb
  case inr.inr.inr.inr.inr => simpa [Instr.wf] using hb
  all_goals rfl

theorem decodeConsole_wf (b : Byte) : (decodeConsole b).wf = true :=
  decodeConsole_cases (fun i => i.wf = true) rfl rfl rfl rfl rfl rfl rfl id id

/-- No call decodes to an operation with an operand that its row does not admit. -/
theorem decode_wf (h : decode p e bs = .ok i) : i.wf = true := by
  unfold decode at h
  split at h
  case h_1 => exact decodeChar_wf h
  case h_5 => cases h; exact decodeConsole_wf _
  case h_13 => cases h
  all_goals cases h; rfl

/-- A console byte selects no operation of the decoder. -/
theorem decodeConsole_ne_termOk (b : Byte) : decodeConsole b ≠ .sbusTermOk :=
  decodeConsole_cases (· ≠ .sbusTermOk) nofun nofun nofun nofun nofun nofun nofun nofun nofun

/-- Only the byte 0x00 given to `process_char` decodes to the good terminator (R130, R135). -/
theorem decode_eq_termOk (h : decode p e bs = .ok .sbusTermOk) : e = .processChar ∧ bs = [0x00] := by
  unfold decode at h
  split at h
  case h_1 b =>
    rcases decodeChar_cases h with ⟨-, -, hi⟩ | ⟨-, -, hi⟩ | ⟨-, -, hi⟩ | ⟨-, hi⟩ | ⟨-, rfl, -⟩ |
      ⟨-, -, hi⟩
    case inr.inr.inr.inr.inl => exact ⟨rfl, rfl⟩
    all_goals cases hi
  case h_5 => exact absurd (Except.ok.inj h) (decodeConsole_ne_termOk _)
  all_goals cases h

/-! ## The parameters at reset (R6) -/

/-- The free values of R6 are legal whatever they are, by how they are built (logs 1, 2, 3). -/
theorem Config.params_legal : Config.params.Legal := by
  refine ⟨by decide, Nat.le_add_left 1 _, ?_⟩
  show Config.prioConsumer < Config.prioConsumer + Config.prioGap + 1
  omega

end Sys2Proof

namespace Sys2Proof.Machine

variable {s t : State} {i : Instr} {b : Byte}

/-! ## The decoder's registers: who writes them (R21 to R24) -/

/-- Everything an operation can do to the decoder. -/
theorem exec_dec_cases (h : exec i s = .next t) :
    t.dec = s.dec ∨ (i = .sbusSync ∧ t.dec = s.dec.sync) ∨
    (∃ b, i = .sbusChan b ∧ 1 ≤ s.dec.pos ∧ s.dec.pos ≤ 22 ∧ t.dec = s.dec.channelByte b) ∨
    (∃ b, i = .sbusFlags b ∧ t.dec = s.dec.flagsByte b) ∨
    (i = .sbusTermOk ∧ s.dec.pos = 24 ∧ t.dec = s.dec.complete) ∨
    (((∃ b, i = .sbusTermBad b) ∨ i = .sbusIdle) ∧ t.dec = s.dec.awaitSync) ∨
    (i = .reset ∧ t.dec = Decoder.reset) := by
  obtain ⟨-, -, ⟨hd, -⟩ | ⟨b, -, -, hdec⟩ | ⟨hd, -⟩ | ⟨-, -, hd, -⟩ | ⟨-, hd, -⟩ | ⟨hi, hd, -⟩⟩ :=
    exec_cases h
  case inr.inl =>
    rcases hdec with ⟨-, hi, hd⟩ | ⟨h1, h22, hi, hd⟩ | ⟨-, hi, hd⟩ | ⟨h24, hi, hd⟩ | ⟨hi, hd⟩
    · exact .inr (.inl ⟨hi, hd⟩)
    · exact .inr (.inr (.inl ⟨b, hi, h1, h22, hd⟩))
    · exact .inr (.inr (.inr (.inl ⟨b, hi, hd⟩)))
    · exact .inr (.inr (.inr (.inr (.inl ⟨hi, h24, hd⟩))))
    · exact .inr (.inr (.inr (.inr (.inr (.inl ⟨hi.imp_left fun hb => ⟨b, hb⟩, hd⟩)))))
  case inr.inr.inr.inr.inr => exact .inr (.inr (.inr (.inr (.inr (.inr ⟨hi, hd⟩)))))
  all_goals exact .inl hd

/-- The channel registers are cleared by a sync byte and ORed into by a data byte (R21). -/
theorem writer_of_channels_ne (h : exec i s = .next t) (hne : t.dec.acc.ch ≠ s.dec.acc.ch) :
    i = .sbusSync ∨ (∃ b, i = .sbusChan b) ∨ i = .reset := by
  rcases exec_dec_cases h with hd | ⟨hi, -⟩ | ⟨b, hi, -⟩ | ⟨b, -, hd⟩ | ⟨-, -, hd⟩ | ⟨-, hd⟩ |
    ⟨hi, -⟩
  · exact absurd (by rw [hd]) hne
  · exact .inl hi
  · exact .inr (.inl ⟨b, hi⟩)
  · exact absurd (by rw [hd]; rfl) hne
  · exact absurd (by rw [hd]; rfl) hne
  · exact absurd (by rw [hd]; rfl) hne
  · exact .inr (.inr hi)

/-- The accumulator's flags are cleared by a sync byte and written by the flags byte; a data byte goes to
the channels alone (R23). -/
theorem writer_of_flags_ne (h : exec i s = .next t)
    (hne : (t.dec.acc.ch17, t.dec.acc.ch18, t.dec.acc.frameLost, t.dec.acc.failsafe) ≠
      (s.dec.acc.ch17, s.dec.acc.ch18, s.dec.acc.frameLost, s.dec.acc.failsafe)) :
    i = .sbusSync ∨ (∃ b, i = .sbusFlags b) ∨ i = .reset := by
  rcases exec_dec_cases h with hd | ⟨hi, -⟩ | ⟨b, -, -, -, hd⟩ | ⟨b, hi, -⟩ | ⟨-, -, hd⟩ | ⟨-, hd⟩ |
    ⟨hi, -⟩
  · exact absurd (by rw [hd]) hne
  · exact .inl hi
  · exact absurd (by simp [hd]) hne
  · exact .inr (.inl ⟨b, hi⟩)
  · exact absurd (by rw [hd]; rfl) hne
  · exact absurd (by rw [hd]; rfl) hne
  · exact .inr (.inr hi)

/-- The latch is written by the good terminator, which copies the accumulator at position 24 (R24, R135). -/
theorem writer_of_latch_ne (h : exec i s = .next t) (hne : ¬ SameLatch s.dec t.dec) :
    (i = .sbusTermOk ∧ s.dec.pos = 24 ∧ t.dec.last = s.dec.acc) ∨ i = .reset := by
  rcases exec_dec_cases h with hd | ⟨-, hd⟩ | ⟨b, -, -, -, hd⟩ | ⟨b, -, hd⟩ | ⟨hi, hpos, hd⟩ |
    ⟨-, hd⟩ | ⟨hi, -⟩
  case inr.inr.inr.inr.inl => exact .inl ⟨hi, hpos, by rw [hd]; rfl⟩
  case inr.inr.inr.inr.inr.inr => exact .inr hi
  all_goals exact absurd (by rw [hd]; exact ⟨rfl, rfl⟩) hne

/-- `POS` is written by the operations of `process_char`, and cleared by an idle event (R22). -/
theorem writer_of_pos_ne (h : exec i s = .next t) (hne : t.dec.pos ≠ s.dec.pos) :
    (encode i).1 = .processChar ∨ i = .sbusIdle ∨ i = .reset := by
  rcases exec_dec_cases h with hd | ⟨rfl, -⟩ | ⟨b, rfl, -⟩ | ⟨b, rfl, -⟩ | ⟨rfl, -⟩ |
    ⟨⟨b, rfl⟩ | hi, -⟩ | ⟨hi, -⟩
  · exact absurd (by rw [hd]) hne
  iterate 5 exact .inl rfl
  · exact .inr (.inl hi)
  · exact .inr (.inr hi)

/-! ## The line buffer and the queue: who writes them (R26, R30) -/

/-- The line is edited by the console operations of R26 alone. -/
theorem writer_of_line_ne (h : exec i s = .next t) (hne : t.line ≠ s.line) :
    i ∈ [.lbSol, .lbLeft, .lbEol, .lbRight, .lbBs, .lbKill, .lbDel] ∨ (∃ b, i = .lbIns b) ∨
      (∃ bs, i = .lbSeq bs) ∨ i = .suiEvent ∨ (∃ b, i = .suiProcess b) ∨ i = .reset := by
  obtain ⟨-, -, ⟨-, hl, -⟩ | ⟨-, hl, -⟩ | ⟨-, -, hedit⟩ | ⟨-, -, -, hl, -⟩ | ⟨hi, -⟩ | ⟨hi, -⟩⟩ :=
    exec_cases h
  · exact absurd hl hne
  · exact absurd hl hne
  · rcases hedit with ⟨rfl, -⟩ | ⟨rfl, -⟩ | ⟨rfl, -⟩ | ⟨rfl, -⟩ | ⟨rfl, -⟩ | ⟨rfl, -⟩ | ⟨rfl, -⟩ |
      ⟨b, hi, -⟩ | ⟨b, hi, -⟩ | ⟨b, bs, hi, -⟩
    iterate 7 exact .inl (by simp)
    · exact .inr (.inl ⟨b, hi⟩)
    · exact .inr (.inr (.inr (.inr (.inl ⟨b, hi⟩))))
    · exact .inr (.inr (.inl ⟨_, hi⟩))
  · exact absurd hl hne
  · exact .inr (.inr (.inr (.inl hi)))
  · exact .inr (.inr (.inr (.inr (.inr hi))))

/-- The queue is filled by `SUI.WRITE` and drained by `SUI.EVENT` (R30). -/
theorem writer_of_queue_ne (h : exec i s = .next t) (hne : t.queue ≠ s.queue) :
    (∃ b, i = .suiWrite b) ∨ i = .suiEvent ∨ i = .reset := by
  obtain ⟨-, -, ⟨-, -, hq⟩ | ⟨-, -, hq, -⟩ | ⟨-, hq, -⟩ | ⟨b, hi, -⟩ | ⟨hi, -⟩ | ⟨hi, -⟩⟩ :=
    exec_cases h
  · exact absurd hq hne
  · exact absurd hq hne
  · exact absurd hq hne
  · exact .inl ⟨b, hi⟩
  · exact .inr (.inl hi)
  · exact .inr (.inr hi)

/-- Settles O19, one `writer_of_…_ne` for each element. -/
theorem eachElementIsWrittenOnlyByItsOperations :
    Obligations.EachElementIsWrittenOnlyByItsOperations := fun _ _ _ h =>
  ⟨writer_of_channels_ne h, writer_of_flags_ne h,
    fun hne => (writer_of_latch_ne h hne).imp_left fun ⟨hi, _⟩ => hi,
    writer_of_pos_ne h, writer_of_line_ne h, writer_of_queue_ne h⟩

/-- Settles O37: of the steps, only those that run an operation can change the latch, by
`writer_of_latch_ne` that operation is the good terminator, and only `process_char` of 0x00 decodes to
it. -/
theorem onlyAGoodTerminatorChangesTheLatch : Obligations.OnlyAGoodTerminatorChangesTheLatch := by
  intro s t h hne
  rcases step_cases h with ⟨-, rfl⟩ | ⟨r, rest, i, hp, -, hd, hi, hx⟩ | ⟨a, rest, -, rfl⟩ |
    ⟨rest, -, rfl⟩ | ⟨b, rest, -, hx⟩ | ⟨a, rest, -, rfl⟩ | ⟨a, b, rest, -, -, rfl⟩
  case inr.inl =>
    rw [← State.load_dec s r rest] at hne
    obtain ⟨rfl, hpos, hlast⟩ := (writer_of_latch_ne hx hne).resolve_right hi
    obtain ⟨hentry, hbytes⟩ := decode_eq_termOk hd
    rw [State.load_dec] at hpos hlast
    exact ⟨r, rest, hp, hentry, hbytes, hpos, hlast⟩
  case inr.inr.inr.inr.inl =>
    rw [exec_decodeConsole] at hx
    cases hx
    exact absurd ⟨rfl, rfl⟩ hne
  all_goals exact absurd ⟨rfl, rfl⟩ hne

/-! ## The invariant of the block (R27, R28, R30, R37, R172) -/

/-- An operation at a position that selects it keeps the decoder's invariants. -/
theorem exec_dec_inv (h : exec i s = .next t) (hs : s.dec.Inv) : t.dec.Inv := by
  rcases exec_dec_cases h with hd | ⟨-, hd⟩ | ⟨b, -, h1, h22, hd⟩ | ⟨b, -, hd⟩ | ⟨-, -, hd⟩ |
    ⟨-, hd⟩ | ⟨-, hd⟩ <;> rw [hd]
  · exact hs
  · exact Decoder.sync_inv hs
  · exact Decoder.channelByte_inv h1 h22 hs
  · exact Decoder.flagsByte_inv hs
  · exact Decoder.complete_inv
  · exact Decoder.awaitSync_inv hs
  · exact Decoder.reset_inv

/-- A byte that `LB.INS` admits is ASCII (R101). -/
theorem getLsbD_of_lbIns_wf (h : (Instr.lbIns b).wf = true) : b.getLsbD 7 = false := by
  simp only [Instr.wf, isInsertable, Bool.and_eq_true, Bool.not_eq_true'] at h
  exact h.1

/-- An operation with an operand its rule admits keeps the line buffer's invariants. The operand matters to
`LB.INS` alone: a byte of 0x80 or more would break R28 (log 20). -/
theorem exec_line_inv (h : exec i s = .next t) (hwf : i.wf = true)
    (hs : s.line.Inv s.params.lbCapacity) : t.line.Inv s.params.lbCapacity := by
  obtain ⟨-, -, ⟨-, hl, -⟩ | ⟨-, hl, -⟩ | ⟨-, -, hedit⟩ | ⟨-, -, -, hl, -⟩ | ⟨-, -, hl, -⟩ |
    ⟨-, -, hl, -⟩⟩ := exec_cases h
  · rwa [hl]
  · rwa [hl]
  · rcases hedit with ⟨-, hl⟩ | ⟨-, hl⟩ | ⟨-, hl⟩ | ⟨-, hl⟩ | ⟨-, hl⟩ | ⟨-, hl⟩ | ⟨-, hl⟩ |
      ⟨b, rfl, hl⟩ | ⟨b, -, hl⟩ | ⟨b, bs, -, hl⟩ <;> rw [hl]
    · exact LineBuffer.startOfLine_inv hs
    · exact LineBuffer.left_inv hs
    · exact LineBuffer.endOfLine_inv hs
    · exact LineBuffer.right_inv hs
    · exact LineBuffer.backspace_inv hs
    · exact LineBuffer.killToEnd_inv hs
    · exact LineBuffer.deleteForward_inv hs
    · exact LineBuffer.insert_inv (getLsbD_of_lbIns_wf hwf) hs
    · exact LineBuffer.process_inv hs
    · exact LineBuffer.process_inv hs
  · rwa [hl]
  · rw [hl]
    exact State.receivedLine_cases (fun l => l.Inv s.params.lbCapacity) hs
      fun _ => LineBuffer.process_inv hs
  · rw [hl]; exact LineBuffer.reset_inv

/-- The transmit branch adds nothing to the queue (R197). -/
theorem State.drainedQueue_length_le (s : State) : s.drainedQueue.length ≤ s.queue.length := by
  rw [State.drainedQueue_eq]
  split_ifs
  · simp
  · exact le_rfl

/-- An operation keeps the queue within its capacity: `SUI.WRITE` appends only where there is room (R30,
R192). -/
theorem exec_queue_bound (h : exec i s = .next t) (hs : s.queue.length ≤ s.params.oqCapacity) :
    t.queue.length ≤ s.params.oqCapacity := by
  obtain ⟨-, -, ⟨-, -, hq⟩ | ⟨-, -, hq, -⟩ | ⟨-, hq, -⟩ | ⟨b, -, -, -, hroom, hq⟩ | ⟨-, -, -, hq⟩ |
    ⟨-, -, -, hq⟩⟩ := exec_cases h <;> rw [hq]
  · exact hs
  · exact hs
  · exact hs
  · simpa using hroom
  · exact s.drainedQueue_length_le.trans hs
  · exact Nat.zero_le _

/-- Every operation with an operand its rule admits keeps the invariant of the block. -/
theorem exec_inv (h : exec i s = .next t) (hwf : i.wf = true) (hs : s.Inv) : t.Inv := by
  obtain ⟨hlegal, hdec, hline, hqueue⟩ := hs
  obtain ⟨⟨hparams, -, -⟩, -, -⟩ := exec_cases h
  rw [State.Inv, hparams]
  exact ⟨hlegal, exec_dec_inv h hdec, exec_line_inv h hwf hline, exec_queue_bound h hqueue⟩

/-- The invariant says nothing of the environment's inputs and of the outputs. -/
theorem State.Inv.of_sameBlock (h : SameBlock s t) (hs : s.Inv) : t.Inv := by
  obtain ⟨hparams, hdec, hline, hqueue⟩ := h
  rwa [State.Inv, hparams, hdec, hline, hqueue]

/-- Settles O15: a step runs an operation that was decoded, so one `exec_inv` covers, or leaves the block
as it was. -/
theorem everyStepKeepsTheInvariant : Obligations.EveryStepKeepsTheInvariant := by
  intro s t hs h
  rcases step_cases h with ⟨-, rfl⟩ | ⟨r, rest, i, -, -, hd, -, hx⟩ | ⟨a, rest, -, rfl⟩ |
    ⟨rest, -, rfl⟩ | ⟨b, rest, -, hx⟩ | ⟨a, rest, -, rfl⟩ | ⟨a, b, rest, -, -, rfl⟩
  case inr.inl =>
    have hload : SameBlock s (s.load r rest) :=
      ⟨State.load_params s r rest, State.load_dec s r rest, State.load_line s r rest,
        State.load_queue s r rest⟩
    exact exec_inv hx (decode_wf hd) (hs.of_sameBlock hload)
  case inr.inr.inr.inr.inl =>
    exact exec_inv hx (decodeConsole_wf b) (State.Inv.of_sameBlock ⟨rfl, rfl, rfl, rfl⟩ hs)
  all_goals exact State.Inv.of_sameBlock ⟨rfl, rfl, rfl, rfl⟩ hs

/-- The invariant holds of the reset state of every block with legal parameters. -/
theorem State.resetWith_inv {p : Params} (h : p.Legal) : (State.resetWith p).Inv :=
  ⟨h, Decoder.reset_inv, LineBuffer.reset_inv, Nat.zero_le _⟩

/-- Settles O16: the registers at reset meet their invariants, the parameters are legal. -/
theorem invariantHoldsAfterReset : Obligations.InvariantHoldsAfterReset :=
  ⟨fun _ => State.resetWith_inv, State.resetWith_inv Config.params_legal⟩

/-! ## A data byte under the invariant (R37, R93) -/

/-- The data byte at positions 1 to 22. -/
theorem exec_sbusChan (h1 : 1 ≤ s.dec.pos.toNat) (h22 : s.dec.pos.toNat ≤ 22) (b : Byte) :
    exec (.sbusChan b) s =
      .next ((s.withDec (s.dec.channelByte b)).finish (.frameValid false) []) :=
  if_pos ⟨by simpa [BitVec.le_def] using h1, by simpa [BitVec.le_def] using h22⟩

/-- Settles O23: R37 (c) says that the eight stream bits the byte is ORed into are 0. -/
theorem dataByteIsStoredUnderTheInvariant : Obligations.DataByteIsStoredUnderTheInvariant := by
  rintro s b ⟨-, ⟨-, ⟨hclear, -⟩, -⟩, -⟩ h1 h22
  refine ⟨_, exec_sbusChan h1 h22 b, fun i hi => ?_⟩
  have hzero : s.dec.acc.streamBit (8 * (s.dec.pos.toNat - 1) + i) = false :=
    hclear h1 h22 _ (by omega) (by omega)
  have hin : 8 * (s.dec.pos.toNat - 1) + i < 8 * s.dec.pos.toNat := by omega
  simp [SbusFrame.streamBit_orByte h1 h22, hzero, hin]

/-! ## Results are outputs (R25) -/

/-- Settles O18: every branch of every operation ends in `State.finish`, which overwrites both fields, and
what comes before it looks at neither. -/
theorem noOperationReadsAnEarlierResult : Obligations.NoOperationReadsAnEarlierResult := by
  intro i s r cs
  cases i with
  | lbSeq bs => cases bs <;> rfl
  | _ => rfl

end Sys2Proof.Machine

/-! SUPPORT. The statements of spec/20_memory.md: which accesses may overlap and in which order they are done,
the burst of a byte sequence, the drain of the outbound queue, and the two sub-blocks that do not interact. -/

namespace Sys2Proof

variable {b : Byte} {i : Instr}

/-! ## The sub-block an operation works on (R9, R35, R105) -/

theorem encode_decodeChar {p : Position} (h : decodeChar p b = .ok i) :
    (encode i).1 = .processChar := by
  rcases decodeChar_cases h with ⟨-, -, rfl⟩ | ⟨-, -, rfl⟩ | ⟨-, -, rfl⟩ | ⟨-, rfl⟩ |
    ⟨-, -, rfl⟩ | ⟨-, -, rfl⟩ <;> rfl

/-- A call decodes to an operation of its own entry point. -/
theorem encode_entry_of_decode {p : Position} {e : EntryPoint} {bs : List Byte}
    (h : decode p e bs = .ok i) : (encode i).1 = e := by
  unfold decode at h
  split at h
  case h_1 => exact encode_decodeChar h
  case h_5 b =>
    cases h
    exact decodeConsole_cases (fun i => (encode i).1 = .process) rfl rfl rfl rfl rfl rfl rfl
      (fun _ => rfl) (fun _ => rfl)
  case h_13 => cases h
  all_goals cases h; rfl

/-- Only the bytes given to `process_char` are decoded under `POS` (R98, R105). -/
theorem decode_pos_irrel {e : EntryPoint} (he : e ≠ .processChar) (p q : Position) (bs : List Byte) :
    decode p e bs = decode q e bs := by
  cases e with
  | processChar => exact absurd rfl he
  | _ => rcases bs with _ | ⟨b, _ | _⟩ <;> rfl

/-- The operation works on the decoder or reads its latch. -/
abbrev Instr.OnDecoder (i : Instr) : Prop :=
  Machine.subBlockOf (encode i).1 = .decoder ∨ Machine.subBlockOf (encode i).1 = .latch

/-- The operation works on the line buffer or the queue. -/
abbrev Instr.OnSerialUi (i : Instr) : Prop :=
  Machine.subBlockOf (encode i).1 = .serialUi

end Sys2Proof

namespace Sys2Proof.Machine

variable {s s' t t' u : State} {i : Instr} {r : Request} {rest xs ys : List Stimulus} {x : Stimulus}
  {b : Byte} {out : List Report}

/-! ## Two operations at once (R76, R77, R78, R272) -/

/-- Two operations that must not overlap are refused. -/
theorem step_overlap_refused {a b : Request} (hp : s.pending = .overlapping a b :: rest)
    (hc : conflict a.entry b.entry = true) : step s = .refused .overlap := by
  simp [step, hp, scheduleOverlap, hc]

theorem conflict_of_subBlockOf_eq {e f : EntryPoint} (h : subBlockOf e = subBlockOf f) :
    conflict e f = true := by
  simp [conflict, h]

/-- The entry points that work on the line buffer or the queue (R35, R76). -/
theorem subBlockOf_eq_serialUi {e : EntryPoint}
    (he : e ∈ [EntryPoint.process, .content, .processSequence, .write, .onEvent, .uiProcess,
      .uiContent]) : subBlockOf e = .serialUi := by
  simp only [List.mem_cons, List.not_mem_nil, or_false] at he
  rcases he with rfl | rfl | rfl | rfl | rfl | rfl | rfl <;> rfl

/-- The entry points that work on `POS` and `ACC` (R77). -/
theorem subBlockOf_eq_decoder {e : EntryPoint}
    (he : e ∈ [EntryPoint.processChar, .processIdle, .readAcc]) : subBlockOf e = .decoder := by
  simp only [List.mem_cons, List.not_mem_nil, or_false] at he
  rcases he with rfl | rfl | rfl <;> rfl

/-- Settles O11: both operations are on the same sub-block, or one is on the whole of the block. -/
theorem overlapOnOneSubBlockIsRefused : Obligations.OverlapOnOneSubBlockIsRefused := by
  intro s a b rest hp hboth
  refine step_overlap_refused hp ?_
  rcases hboth with ⟨ha, hb⟩ | ⟨ha, hb⟩ | ha | hb
  · exact conflict_of_subBlockOf_eq ((subBlockOf_eq_serialUi ha).trans (subBlockOf_eq_serialUi hb).symm)
  · exact conflict_of_subBlockOf_eq ((subBlockOf_eq_decoder ha).trans (subBlockOf_eq_decoder hb).symm)
  · simp [conflict, ha, subBlockOf]
  · simp [conflict, hb, subBlockOf]

/-- A step that is not refused is the first of the steps after it. -/
theorem steps_succ {k : Nat} (h : step s = .next t) : steps (k + 1) s = steps k t := by
  simp [steps, h]

/-- `SBUS.READ` runs at the ceiling, the priority of the SBUS receive handler, which therefore waits. -/
theorem overlapOrder_lockedRead (p : Params) (b : Byte) :
    overlapOrder p readRequest (charRequest b) = [.call readRequest, .call (charRequest b)] :=
  if_neg (lt_irrefl p.prioSbusRx)

/-- The foreground's `SBUS.READ` returns the latch and leaves the block and the stimuli after it alone. -/
theorem step_lockedRead (hp : s.pending = .call readRequest :: rest) :
    step s = .next ((s.withPending rest).finish (.lastFrame s.dec.lastValid s.dec.last) []) :=
  step_call (i := .sbusRead) hp rfl rfl nofun

/-- Settles O12: the step of the overlap puts the read first, the next step is the read. -/
theorem lockedReadIsDoneBeforeTheArrivingByte :
    Obligations.LockedReadIsDoneBeforeTheArrivingByte := by
  intro s b rest hp
  refine ⟨(s.withPending (.call (charRequest b) :: rest)).finish
    (.lastFrame s.dec.lastValid s.dec.last) [], ?_, rfl, rfl, rfl⟩
  rw [steps_succ (step_overlapping hp rfl), overlapOrder_lockedRead]
  exact steps_succ (step_lockedRead rfl)

/-! ## A byte sequence (R67, R160, R171) -/

/-- The step of a sequence's next byte edits the line by that byte. -/
theorem step_sequenceByte (hp : s.pending = .sequenceByte b :: rest) :
    step s = .next (((s.withPending rest).withLine
      (s.line.process s.params.lbCapacity b)).finish .nothing []) := by
  rw [step, hp]
  exact exec_decodeConsole b _

/-- Settles O58: the first byte's edit is `exec_decodeConsole`, and a later byte's step runs its
operation by definition. -/
theorem sequenceGoesOutByteByByte : Obligations.SequenceGoesOutByteByByte := by
  intro s
  refine ⟨⟨_, rfl, ⟨rfl, rfl⟩, rfl, rfl, rfl, rfl, rfl, rfl, rfl⟩,
    fun b bs => ⟨_, rfl, ⟨rfl, rfl⟩, rfl, exec_decodeConsole b s⟩, fun b rest hp => ?_⟩
  rw [step, hp]
  rfl

/-- The bytes of a sequence still to come take one step each and leave the line as `processAll` says. -/
theorem steps_sequence (s : State) (rest : List Stimulus) (bs : List Byte) (l : LineBuffer) :
    steps bs.length (((s.withPending (bs.map .sequenceByte ++ rest)).withLine l).finish .nothing []) =
      some (((s.withPending rest).withLine (l.processAll s.params.lbCapacity bs)).finish
        .nothing []) := by
  induction bs generalizing l with
  | nil => rfl
  | cons b bs ih =>
    rw [List.length_cons, steps_succ (step_sequenceByte rfl)]
    exact ih (l.process s.params.lbCapacity b)

/-- Settles O59: after the first byte, which goes out in the call's own step, by `steps_sequence`. -/
theorem sequenceTakesOneStepPerByte : Obligations.SequenceTakesOneStepPerByte := by
  intro s bs
  cases bs with
  | nil => exact ⟨_, _, rfl, rfl, ⟨rfl, rfl⟩, ⟨rfl, rfl, rfl, rfl, rfl, rfl⟩, rfl⟩
  | cons b bs =>
    exact ⟨_, _, rfl, steps_sequence s s.pending bs _, ⟨rfl, rfl⟩, ⟨rfl, rfl, rfl, rfl, rfl, rfl⟩,
      rfl⟩

/-! ## The drain of the queue (R74, R193, R197) -/

@[simp] theorem writtenBytes_append (cs ds : List XcvrCall) :
    writtenBytes (cs ++ ds) = writtenBytes cs ++ writtenBytes ds := by
  induction cs with
  | nil => rfl
  | cons c cs ih => cases c <;> simp [writtenBytes, ih]

/-- The receive branch writes no byte. -/
@[simp] theorem writtenBytes_receiveCalls (s : State) : writtenBytes s.receiveCalls = [] := by
  unfold State.receiveCalls
  split_ifs <;> rfl

/-- The transmit branch hands the oldest queued byte to the transmitter when that is ready. -/
theorem writtenBytes_transmitCalls (h : s.console.transmitReady = true) :
    writtenBytes s.transmitCalls = s.queue.head?.toList := by
  unfold State.transmitCalls
  rw [if_pos h]
  cases s.queue <;> rfl

/-- An event with the transmitter ready takes the oldest byte off the queue and writes just that byte,
whatever else the transceiver answers. -/
theorem step_event {a : Answers} (ha : a.transmitReady = true) :
    ∃ t, step (s.withPending [.call (eventRequest a)]) = .next t ∧ t.queue = s.queue.tail ∧
      writtenBytes t.calls = s.queue.head?.toList := by
  refine ⟨_, step_call (i := .suiEvent) (rest := []) rfl rfl rfl nofun, ?_, ?_⟩
  · rw [State.finish_queue, State.withQueue_queue, State.drainedQueue_eq]
    exact if_pos ha
  · rw [State.finish_calls, writtenBytes_append, writtenBytes_receiveCalls,
      writtenBytes_transmitCalls ha]
    rfl

/-- Settles O51, by induction on the events: each takes the oldest byte. -/
theorem eventsDrainTheQueueInOrder : Obligations.EventsDrainTheQueueInOrder := by
  intro s as hlen hready
  induction as generalizing s with
  | nil =>
    have hqueue : s.queue = [] := List.eq_nil_of_length_eq_zero hlen.symm
    exact ⟨[], s, rfl, hqueue.symm, hqueue⟩
  | cons a as ih =>
    obtain ⟨q, qs, hq⟩ : ∃ q qs, s.queue = q :: qs := List.exists_cons_of_length_eq_add_one hlen.symm
    obtain ⟨t, hstep, htail, hwritten⟩ := step_event (s := s) (hready a (by simp))
    rw [hq] at hlen htail hwritten
    obtain ⟨out, u, hrest, hout, hempty⟩ := ih t (by simpa [htail] using hlen)
      fun a' ha' => hready a' (by simp [ha'])
    refine ⟨_, u, deliver_call (by simp [eventRequest]) hstep hrest, ?_, hempty⟩
    simp [hwritten, hout, htail, hq]

/-! ## What an operation of one sub-block reads and writes (R72) -/

/-- An operation on the decoder leaves the line buffer and the queue alone (R72). -/
theorem exec_onDecoder_frame (h : exec i s = .next t) (hi : i.OnDecoder) :
    t.line = s.line ∧ t.queue = s.queue := by
  constructor <;> by_contra hne
  · rcases writer_of_line_ne h hne with hmem | ⟨b, rfl⟩ | ⟨bs, rfl⟩ | rfl | ⟨b, rfl⟩ | rfl
    · simp only [List.mem_cons, List.not_mem_nil, or_false] at hmem
      rcases hmem with rfl | rfl | rfl | rfl | rfl | rfl | rfl <;> exact hi.elim nofun nofun
    all_goals exact hi.elim nofun nofun
  · rcases writer_of_queue_ne h hne with ⟨b, rfl⟩ | rfl | rfl <;> exact hi.elim nofun nofun

/-- An operation on the Serial UI leaves the decoder alone (R72). -/
theorem exec_onSerialUi_frame (h : exec i s = .next t) (hi : i.OnSerialUi) : t.dec = s.dec := by
  rcases exec_dec_cases h with hd | ⟨rfl, -⟩ | ⟨b, rfl, -⟩ | ⟨b, rfl, -⟩ | ⟨rfl, -⟩ |
    ⟨⟨b, rfl⟩ | rfl, -⟩ | ⟨rfl, -⟩
  · exact hd
  all_goals cases hi

/-- An operation on the decoder reads nothing but the decoder. -/
theorem exec_onDecoder_congr (h : exec i s = .next t) (hi : i.OnDecoder) (hdec : s'.dec = s.dec) :
    ∃ t', exec i s' = .next t' ∧ t'.dec = t.dec := by
  cases i with
  | sbusSync | sbusSkip | sbusChan | sbusFlags | sbusTermOk | sbusTermBad =>
    simp only [exec, execSbusSync, execSbusSkip, execSbusChan, execSbusFlags, execSbusTermOk,
      execSbusTermBad, hdec] at h ⊢
    split_ifs at h ⊢
    cases h
    exact ⟨_, rfl, by simp [hdec]⟩
  | sbusIdle | sbusRead | sbusReadacc =>
    cases h
    exact ⟨_, rfl, by simp [hdec]⟩
  | _ => exact hi.elim nofun nofun

/-- All that an operation on the Serial UI reads or writes: the parameters, the line buffer, the queue and
the console transceiver's answers. -/
def State.consoleView (s : State) : Params × LineBuffer × List Byte × Answers :=
  (s.params, s.line, s.queue, s.console)

theorem State.consoleView_eq_iff :
    s'.consoleView = s.consoleView ↔ s'.params = s.params ∧ s'.line = s.line ∧ s'.queue = s.queue ∧
      s'.console = s.console := by
  simp [State.consoleView]

/-- An operation on the Serial UI reads nothing but its own view. -/
theorem exec_onSerialUi_congr (h : exec i s = .next t) (hi : i.OnSerialUi)
    (hview : s'.consoleView = s.consoleView) :
    ∃ t', exec i s' = .next t' ∧ t'.consoleView = t.consoleView := by
  obtain ⟨hparams, hline, hqueue, hconsole⟩ := State.consoleView_eq_iff.1 hview
  cases i with
  | suiWrite b =>
    simp only [exec, execSuiWrite, hparams, hqueue, hconsole] at h ⊢
    split_ifs at h ⊢
    · cases h
      exact ⟨_, rfl, by simp [State.consoleView, *]⟩
    · cases henq : enqueue s.params.oqCapacity s.queue b <;> rw [henq] at h <;> cases h <;>
        exact ⟨_, rfl, by simp [State.consoleView, *]⟩
  | suiEvent =>
    cases h
    exact ⟨_, rfl, by simp [State.consoleView, State.receivedLine, State.drainedQueue, *]⟩
  | lbSeq bs => cases bs <;> cases h <;> exact ⟨_, rfl, by simp [State.consoleView, *]⟩
  | lbSol | lbLeft | lbEol | lbRight | lbBs | lbKill | lbDel | lbDrop | lbIns | lbContent |
    suiProcess | suiContent =>
    cases h
    exact ⟨_, rfl, by simp [State.consoleView, *]⟩
  | _ => cases hi

/-- What an operation puts before the stimuli to come does not depend on the state. -/
theorem exec_pending_congr (h : exec i s = .next t) (h' : exec i s' = .next t')
    (hp : s'.pending = s.pending) : t'.pending = t.pending := by
  by_cases hseq : ∃ bs, i = .lbSeq bs
  · obtain ⟨bs, rfl⟩ := hseq
    rw [exec_lbSeq_pending h, exec_lbSeq_pending h', hp]
  · rw [exec_pending h fun bs hi => hseq ⟨bs, hi⟩, exec_pending h' fun bs hi => hseq ⟨bs, hi⟩, hp]

/-! ## Two classes of stimuli that act on separate parts of the state -/

/-- A step on a stimulus of the class `P` acts on what `view` shows as `view` alone determines; a step on
one of the class `Q` leaves it alone. -/
structure Separates {α : Type} (P Q : Stimulus → Bool) (view : State → α) : Prop where
  withPending (s : State) (xs : List Stimulus) : view (s.withPending xs) = view s
  own {s s' t : State} {x : Stimulus} {rest : List Stimulus} : s.pending = x :: rest → P x = true →
    s'.pending = s.pending → view s' = view s → step s = .next t →
    ∃ t', step s' = .next t' ∧ t'.pending = t.pending ∧ view t' = view t
  other {s t : State} {x : Stimulus} {rest : List Stimulus} : s.pending = x :: rest → Q x = true →
    step s = .next t → view t = view s

/-- A step on a stimulus of the class `P` puts only such stimuli before those to come. -/
def StaysIn (P : Stimulus → Bool) : Prop :=
  ∀ ⦃s t : State⦄ ⦃x : Stimulus⦄ ⦃rest : List Stimulus⦄, s.pending = x :: rest → P x = true →
    step s = .next t → ∀ y ∈ t.pending, P y = true ∨ y ∈ rest

/-- A settling that succeeds has no stimulus left, or takes a step and settles from there. -/
theorem settle_cases {k : Nat} (h : settle k s = some (out, u)) :
    (s.pending = [] ∧ u = s) ∨
    ∃ j x rest t o, k = j + 1 ∧ s.pending = x :: rest ∧ step s = .next t ∧
      settle j t = some (o, u) := by
  cases hp : s.pending with
  | nil =>
    rw [settle_done k hp] at h
    cases h
    exact .inl ⟨rfl, rfl⟩
  | cons x rest =>
    cases k with
    | zero => simp [settle, hp] at h
    | succ j =>
      simp only [settle, hp, List.isEmpty_cons, Bool.false_eq_true, if_false] at h
      cases hstep : step s with
      | next t =>
        rw [hstep] at h
        obtain ⟨⟨o, w⟩, hrest, he⟩ := Option.map_eq_some_iff.1 h
        cases he
        exact .inr ⟨j, x, rest, t, o, rfl, rfl, rfl, hrest⟩
      | fault e => rw [hstep] at h; cases h
      | refused e => rw [hstep] at h; cases h

section Separated

variable {α β : Type} {P Q : Stimulus → Bool} {view : State → α} {viewQ : State → β}

/-- The stimuli that are left after a step on stimuli of one class are of that class. -/
theorem StaysIn.pending (hP : StaysIn P) (hp : s.pending = x :: rest)
    (hall : ∀ y ∈ s.pending, P y = true) (hstep : step s = .next t) : ∀ y ∈ t.pending, P y = true := by
  rw [hp, List.forall_mem_cons] at hall
  intro y hy
  exact (hP hp hall.1 hstep y hy).elim id (hall.2 y)

/-- Settling stimuli of the own class depends on the view alone. -/
theorem Separates.settle_own (hsep : Separates P Q view) (hP : StaysIn P) {k : Nat}
    (hall : ∀ y ∈ s.pending, P y = true) (hsame : s'.pending = s.pending)
    (hview : view s' = view s) (h : settle k s = some (out, u)) :
    ∃ out' u', settle k s' = some (out', u') ∧ view u' = view u := by
  induction k generalizing s s' out with
  | zero =>
    rcases settle_cases h with ⟨hp, rfl⟩ | ⟨_, _, _, _, _, ⟨⟩, -⟩
    exact ⟨_, s', settle_done 0 (hsame.trans hp), hview⟩
  | succ k ih =>
    rcases settle_cases h with ⟨hp, rfl⟩ | ⟨j, x, rest, t, o, ⟨⟩, hp, hstep, hrest⟩
    · exact ⟨_, s', settle_done _ (hsame.trans hp), hview⟩
    · obtain ⟨t', hstep', hsame', hview'⟩ := hsep.own hp (hall x (by simp [hp])) hsame hview hstep
      obtain ⟨o', u', hrest', hu⟩ := ih (hP.pending hp hall hstep) hsame' hview' hrest
      exact ⟨_, u', settle_step (by simp [hsame, hp]) hstep' hrest', hu⟩

/-- Settling stimuli of the other class leaves the view alone. -/
theorem Separates.settle_other (hsep : Separates P Q view) (hQ : StaysIn Q) {k : Nat}
    (hall : ∀ y ∈ s.pending, Q y = true) (h : settle k s = some (out, u)) : view u = view s := by
  induction k generalizing s out with
  | zero =>
    rcases settle_cases h with ⟨-, rfl⟩ | ⟨_, _, _, _, _, ⟨⟩, -⟩
    rfl
  | succ k ih =>
    rcases settle_cases h with ⟨-, rfl⟩ | ⟨j, x, rest, t, o, ⟨⟩, hp, hstep, hrest⟩
    · rfl
    · exact (ih (hQ.pending hp hall hstep) hrest).trans (hsep.other hp (hall x (by simp [hp])) hstep)

/-- One stimulus of the own class, presented to two states with the same view. -/
theorem Separates.settle_one_own (hsep : Separates P Q view) (hP : StaysIn P) (hx : P x = true)
    (hview : view s' = view s) (h : settle x.work (s.withPending [x]) = some (out, u)) :
    ∃ out' u', settle x.work (s'.withPending [x]) = some (out', u') ∧ view u' = view u :=
  hsep.settle_own (s := s.withPending [x]) (s' := s'.withPending [x]) hP (by simpa using hx) rfl
    (by rwa [hsep.withPending, hsep.withPending]) h

/-- One stimulus of the other class. -/
theorem Separates.settle_one_other (hsep : Separates P Q view) (hQ : StaysIn Q) (hx : Q x = true)
    (h : settle x.work (s.withPending [x]) = some (out, u)) : view u = view s :=
  (hsep.settle_other hQ (by simpa using hx) h).trans (hsep.withPending s [x])

/-- The stimuli of the own class, delivered alone, end in the view that the whole delivery ends in. -/
theorem Separates.deliver_filter (hsep : Separates P Q view) (hP : StaysIn P) (hQ : StaysIn Q)
    (hclass : ∀ x ∈ xs, P x = true ∨ Q x = true) (h : deliver xs s = some (out, u))
    (hview : view s' = view s) :
    ∃ out' u', deliver (xs.filter P) s' = some (out', u') ∧ view u' = view u := by
  induction xs generalizing s s' out with
  | nil => cases h; exact ⟨[], s', rfl, hview⟩
  | cons x xs ih =>
    rw [List.forall_mem_cons] at hclass
    obtain ⟨hx, hxs⟩ := hclass
    obtain ⟨t, o, o', hfirst, hrest, -⟩ := deliver_cons_inv h
    by_cases hxP : P x = true
    · obtain ⟨_, t', hfirst', hview'⟩ := hsep.settle_one_own hP hxP hview hfirst
      obtain ⟨_, u', hrest', hu⟩ := ih hxs hrest hview'
      rw [List.filter_cons_of_pos hxP]
      exact ⟨_, u', deliver_cons hfirst' hrest', hu⟩
    · have hkeep : view t = view s := hsep.settle_one_other hQ (hx.resolve_left hxP) hfirst
      rw [List.filter_cons_of_neg hxP]
      exact ih hxs hrest (hview.trans hkeep.symm)

/-- Where the stimuli of each class, delivered alone, are accepted, so is every interleaving of them, and
it ends in the two views they end in. -/
theorem Separates.deliver_interleaved (hsep : Separates P Q view) (hsepQ : Separates Q P viewQ)
    (hP : StaysIn P) (hQ : StaysIn Q) (hexcl : ∀ x, P x = true → ¬ Q x = true)
    (hclass : ∀ x ∈ xs, P x = true ∨ Q x = true) {sP sQ tP tQ : State} {outP outQ : List Report}
    (hown : deliver (xs.filter P) sP = some (outP, tP))
    (hother : deliver (xs.filter Q) sQ = some (outQ, tQ))
    (hview : view s = view sP) (hviewQ : viewQ s = viewQ sQ) :
    ∃ out t, deliver xs s = some (out, t) ∧ view t = view tP ∧ viewQ t = viewQ tQ := by
  induction xs generalizing s sP sQ outP outQ with
  | nil => cases hown; cases hother; exact ⟨[], s, rfl, hview, hviewQ⟩
  | cons x xs ih =>
    rw [List.forall_mem_cons] at hclass
    obtain ⟨hx, hxs⟩ := hclass
    by_cases hxP : P x = true
    · rw [List.filter_cons_of_pos hxP] at hown
      rw [List.filter_cons_of_neg (hexcl x hxP)] at hother
      obtain ⟨vP, _, _, hfirst, hrest, -⟩ := deliver_cons_inv hown
      obtain ⟨_, v, hv, hviewP⟩ := hsep.settle_one_own hP hxP hview hfirst
      have hkeep : viewQ v = viewQ s := hsepQ.settle_one_other hP hxP hv
      obtain ⟨_, t, ht, hends⟩ := ih hxs hrest hother hviewP (hkeep.trans hviewQ)
      exact ⟨_, t, deliver_cons hv ht, hends⟩
    · have hxQ : Q x = true := hx.resolve_left hxP
      rw [List.filter_cons_of_neg hxP] at hown
      rw [List.filter_cons_of_pos hxQ] at hother
      obtain ⟨vQ, _, _, hfirst, hrest, -⟩ := deliver_cons_inv hother
      obtain ⟨_, v, hv, hviewQ'⟩ := hsepQ.settle_one_own hQ hxQ hviewQ hfirst
      have hkeep : view v = view s := hsep.settle_one_other hQ hxQ hv
      obtain ⟨_, t, ht, hends⟩ := ih hxs hown hrest (hkeep.trans hview) hviewQ'
      exact ⟨_, t, deliver_cons hv ht, hends⟩

end Separated

/-! ## The decoder's calls and the Serial UI's calls (R72) -/

theorem isSbusCall_iff : x.isSbusCall = true ↔
    ∃ r, x = .call r ∧ (subBlockOf r.entry = .decoder ∨ subBlockOf r.entry = .latch) ∧
      r.answers = none := by
  cases x <;> simp [Stimulus.isSbusCall]

theorem isConsoleCall_iff : x.isConsoleCall = true ↔
    (∃ b, x = .sequenceByte b) ∨ ∃ r, x = .call r ∧ subBlockOf r.entry = .serialUi := by
  cases x <;> simp [Stimulus.isConsoleCall]

theorem not_isConsoleCall_of_isSbusCall (x : Stimulus) (h : x.isSbusCall = true) :
    ¬ x.isConsoleCall = true := by
  obtain ⟨r, rfl, hsub, -⟩ := isSbusCall_iff.1 h
  rcases hsub with hsub | hsub <;> simp [Stimulus.isConsoleCall, hsub]

/-- A call that a step accepts is one its context may issue, and decodes to the operation that runs. -/
theorem step_call_inv (hp : s.pending = .call r :: rest) (h : step s = .next t) :
    ∃ i, r.context.mayIssue r.entry = true ∧ decode s.dec.pos r.entry r.bytes = .ok i ∧ i ≠ .reset ∧
      subBlockOf (encode i).1 = subBlockOf r.entry ∧ exec i (s.load r rest) = .next t := by
  rcases step_cases h with ⟨hq, -⟩ | ⟨r', rest', i, hq, hc, hd, hi, hx⟩ | ⟨_, _, hq, -⟩ | ⟨_, hq, -⟩ |
    ⟨_, _, hq, -⟩ | ⟨_, _, hq, -⟩ | ⟨_, _, _, hq, -⟩ <;> cases hp.symm.trans hq
  exact ⟨i, hc, hd, hi, by rw [encode_entry_of_decode hd], hx⟩

/-- A decoder call puts nothing before the stimuli to come. -/
theorem staysIn_isSbusCall : StaysIn Stimulus.isSbusCall := by
  intro s t x rest hp hx h y hy
  obtain ⟨r, rfl, hsub, -⟩ := isSbusCall_iff.1 hx
  obtain ⟨i, -, -, -, hi, hexec⟩ := step_call_inv hp h
  have hseq : ∀ bs, i ≠ .lbSeq bs := by
    rintro bs rfl
    rw [← hi] at hsub
    simp [encode, subBlockOf] at hsub
  rw [exec_pending hexec hseq, State.load_pending] at hy
  exact .inr hy

/-- A Serial UI call puts at most the bytes of its sequence before the stimuli to come. -/
theorem staysIn_isConsoleCall : StaysIn Stimulus.isConsoleCall := by
  intro s t x rest hp hx h y hy
  rcases isConsoleCall_iff.1 hx with ⟨b, rfl⟩ | ⟨r, rfl, -⟩
  · rw [step_sequenceByte hp] at h
    cases h
    exact .inr hy
  · obtain ⟨i, -, -, -, -, hexec⟩ := step_call_inv hp h
    obtain ⟨-, hpend | ⟨b, bs, -, hpend⟩, -⟩ := exec_cases hexec <;>
      rw [hpend, State.load_pending] at hy
    · exact .inr hy
    · rcases List.mem_append.1 hy with hmem | hmem
      · obtain ⟨c, -, rfl⟩ := List.mem_map.1 hmem
        exact .inl rfl
      · exact .inr hmem

/-- The decoder's state belongs to the decoder's calls. -/
theorem separates_dec : Separates Stimulus.isSbusCall Stimulus.isConsoleCall State.dec where
  withPending _ _ := rfl
  own := by
    intro s s' t x rest hp hx hsame hdec h
    obtain ⟨r, rfl, hsub, -⟩ := isSbusCall_iff.1 hx
    obtain ⟨i, hc, hd, hne, hi, hexec⟩ := step_call_inv hp h
    obtain ⟨t', hexec', ht⟩ := exec_onDecoder_congr (s' := s'.load r rest) hexec
      (by rwa [Instr.OnDecoder, hi]) (by simpa using hdec)
    refine ⟨t', ?_, exec_pending_congr hexec hexec' (by simp), ht⟩
    rw [step_call (hsame.trans hp) hc (by rwa [hdec]) hne, hexec']
  other := by
    intro s t x rest hp hx h
    rcases isConsoleCall_iff.1 hx with ⟨b, rfl⟩ | ⟨r, rfl, hsub⟩
    · rw [step_sequenceByte hp] at h
      cases h
      rfl
    · obtain ⟨i, -, -, -, hi, hexec⟩ := step_call_inv hp h
      exact (exec_onSerialUi_frame hexec (hi.trans hsub)).trans (State.load_dec s r rest)

/-- The line buffer and the queue, with the inputs they depend on, belong to the Serial UI's calls. -/
theorem separates_consoleView :
    Separates Stimulus.isConsoleCall Stimulus.isSbusCall State.consoleView where
  withPending _ _ := rfl
  own := by
    intro s s' t x rest hp hx hsame hview h
    obtain ⟨hparams, hline, hqueue, hconsole⟩ := State.consoleView_eq_iff.1 hview
    rcases isConsoleCall_iff.1 hx with ⟨b, rfl⟩ | ⟨r, rfl, hsub⟩
    · rw [step_sequenceByte hp] at h
      cases h
      exact ⟨_, step_sequenceByte (hsame.trans hp), rfl, by simp [State.consoleView_eq_iff, *]⟩
    · obtain ⟨i, hc, hd, hne, hi, hexec⟩ := step_call_inv hp h
      obtain ⟨t', hexec', ht⟩ := exec_onSerialUi_congr (s' := s'.load r rest) hexec (hi.trans hsub)
        (by simp [State.consoleView_eq_iff, *])
      refine ⟨t', ?_, exec_pending_congr hexec hexec' (by simp), ht⟩
      have hchar : r.entry ≠ .processChar := fun he => by simp [he, subBlockOf] at hsub
      rw [step_call (hsame.trans hp) hc (by rwa [decode_pos_irrel hchar _ s.dec.pos]) hne, hexec']
  other := by
    intro s t x rest hp hx h
    obtain ⟨r, rfl, hsub, hanswers⟩ := isSbusCall_iff.1 hx
    obtain ⟨i, -, -, -, hi, hexec⟩ := step_call_inv hp h
    obtain ⟨⟨hparams, -, hconsole⟩, -, -⟩ := exec_cases hexec
    obtain ⟨hline, hqueue⟩ := exec_onDecoder_frame hexec (by rwa [Instr.OnDecoder, hi])
    simp [State.consoleView_eq_iff, hparams, hconsole, hline, hqueue, hanswers]

/-- Settles O52: the one sequence is taken apart into the calls of the two sub-blocks, each of which ends
alone as it does in the sequence, and the other is put together from them. -/
theorem theTwoUartsDoNotInteract : Obligations.TheTwoUartsDoNotInteract := by
  intro s t xs ys out hxs hys hsbus hconsole h
  obtain ⟨outD, tD, hD, hdec⟩ :=
    separates_dec.deliver_filter staysIn_isSbusCall staysIn_isConsoleCall hxs h rfl
  obtain ⟨outC, tC, hC, hview⟩ := separates_consoleView.deliver_filter staysIn_isConsoleCall
    staysIn_isSbusCall (fun x hx => (hxs x hx).symm) h rfl
  rw [hsbus] at hD
  rw [hconsole] at hC
  obtain ⟨out', t', ht', hdec', hview'⟩ := separates_dec.deliver_interleaved separates_consoleView
    staysIn_isSbusCall staysIn_isConsoleCall not_isConsoleCall_of_isSbusCall hys hD hC rfl rfl
  obtain ⟨-, hline, hqueue, -⟩ := State.consoleView_eq_iff.1 (hview'.trans hview)
  exact ⟨out', t', ht', hdec'.trans hdec, hline, hqueue⟩

end Sys2Proof.Machine

/-! SUPPORT. The statements of spec/30_encoding.md: decode and encode are inverse to each other, the table's
mask rows decode as the rules do, and the decoded channels are the closed form. -/

namespace Sys2Proof

variable {p : Position} {e : EntryPoint} {b : Byte} {bs : List Byte} {i : Instr}

/-! ## A byte of the decoder, position by position (R98, R130) -/

theorem decodeChar_zero (b : Byte) :
    decodeChar 0 b = if b = 0x0F then .ok .sbusSync else .ok (.sbusSkip b) := rfl

theorem decodeChar_data (h0 : p ≠ 0) (h22 : p ≤ 22) (b : Byte) :
    decodeChar p b = .ok (.sbusChan b) := by
  rw [decodeChar, if_neg h0, if_pos h22]

theorem decodeChar_flags (b : Byte) : decodeChar 23 b = .ok (.sbusFlags b) := rfl

theorem decodeChar_terminator (b : Byte) :
    decodeChar 24 b = if b = 0x00 then .ok .sbusTermOk else .ok (.sbusTermBad b) := rfl

theorem decodeChar_selectedAt (h : decodeChar p b = .ok i) : i.selectedAt p = true := by
  rcases decodeChar_cases h with ⟨rfl, -, rfl⟩ | ⟨rfl, -, rfl⟩ | ⟨h0, h22, rfl⟩ | ⟨rfl, rfl⟩ |
    ⟨rfl, -, rfl⟩ | ⟨rfl, -, rfl⟩
  case inr.inr.inl =>
    have h1 : 1 ≤ p := by bv_omega
    rw [Instr.selectedAt, decide_eq_true h1, decide_eq_true h22, Bool.and_self]
  all_goals rfl

/-- The byte of a fixed row is the one its test on the byte has found (R90). -/
theorem encode_of_decodeChar (h : decodeChar p b = .ok i) : encode i = (.processChar, [b]) := by
  rcases decodeChar_cases h with ⟨-, rfl, rfl⟩ | ⟨-, -, rfl⟩ | ⟨-, -, rfl⟩ | ⟨-, rfl⟩ |
    ⟨-, rfl, rfl⟩ | ⟨-, -, rfl⟩ <;> rfl

/-! ## A console byte, class by class (R101) -/

theorem getLsbD_seven_iff : b.getLsbD 7 = true ↔ 0x80 ≤ b.toNat := by
  rw [← BitVec.msb_eq_getLsbD_last, BitVec.msb_eq_decide, decide_eq_true_iff]

theorem isControlCode_iff : isControlCode b = true ↔
    b ∈ ([0x01, 0x02, 0x05, 0x06, 0x08, 0x0B, 0x7F] : List Byte) := by
  simp [isControlCode, or_assoc]

/-- The seven codes are ASCII, so the first two classes are disjoint. -/
theorem isControlCode_of_high (h : b.getLsbD 7 = true) : isControlCode b = false := by
  by_contra hcode
  have hmem := isControlCode_iff.1 (Bool.eq_true_of_not_eq_false hcode)
  simp only [List.mem_cons, List.not_mem_nil, or_false] at hmem
  rcases hmem with rfl | rfl | rfl | rfl | rfl | rfl | rfl <;> cases h

/-- A byte that is no code is told by its bit 7. -/
theorem decodeConsole_of_not_code (h : isControlCode b = false) :
    decodeConsole b = if b.getLsbD 7 then .lbDrop b else .lbIns b := by
  simp only [isControlCode, Bool.or_eq_false_iff, beq_eq_false_iff_ne] at h
  simp only [decodeConsole, h, if_false]

theorem decodeConsole_high (h : b.getLsbD 7 = true) : decodeConsole b = .lbDrop b := by
  rw [decodeConsole_of_not_code (isControlCode_of_high h), if_pos h]

theorem decodeConsole_insertable (h : isInsertable b = true) : decodeConsole b = .lbIns b := by
  simp only [isInsertable, Bool.and_eq_true, Bool.not_eq_true'] at h
  obtain ⟨hlow, hcode⟩ := h
  rw [decodeConsole_of_not_code hcode, hlow, if_neg Bool.false_ne_true]

theorem decodeConsole_eq_lbDrop_iff : decodeConsole b = .lbDrop b ↔ b.getLsbD 7 = true :=
  ⟨fun h => by simpa [h, Instr.wf] using decodeConsole_wf b, decodeConsole_high⟩

theorem decodeConsole_eq_lbIns_iff : decodeConsole b = .lbIns b ↔ isInsertable b = true :=
  ⟨fun h => by simpa [h, Instr.wf] using decodeConsole_wf b, decodeConsole_insertable⟩

theorem encode_decodeConsole (b : Byte) : encode (decodeConsole b) = (.process, [b]) := by
  cases hcode : isControlCode b with
  | true =>
    have hmem := isControlCode_iff.1 hcode
    simp only [List.mem_cons, List.not_mem_nil, or_false] at hmem
    rcases hmem with rfl | rfl | rfl | rfl | rfl | rfl | rfl <;> rfl
  | false =>
    rw [decodeConsole_of_not_code hcode]
    split_ifs <;> rfl

theorem decodeConsole_selectedAt (p : Position) (b : Byte) :
    (decodeConsole b).selectedAt p = true :=
  decodeConsole_cases (fun i => i.selectedAt p = true) rfl rfl rfl rfl rfl rfl rfl
    (fun _ => rfl) (fun _ => rfl)

/-! ## Decode and encode (R98, R101, R105) -/

/-- Settles O1: the position and the operand an operation admits decide the tests of its decoder. -/
theorem decodeOfEncodeGivesTheOperationBack : Obligations.DecodeOfEncodeGivesTheOperationBack := by
  intro i p hwf hsel
  cases i with
  | sbusSync =>
    obtain rfl : p = 0 := by simpa [Instr.selectedAt] using hsel
    rfl
  | sbusSkip b =>
    obtain rfl : p = 0 := by simpa [Instr.selectedAt] using hsel
    exact (decodeChar_zero b).trans (if_neg (by simpa [Instr.wf] using hwf))
  | sbusChan b =>
    obtain ⟨h1, h22⟩ : 1 ≤ p ∧ p ≤ 22 := by simpa [Instr.selectedAt] using hsel
    exact decodeChar_data (by bv_omega) h22 b
  | sbusFlags b =>
    obtain rfl : p = 23 := by simpa [Instr.selectedAt] using hsel
    exact decodeChar_flags b
  | sbusTermOk =>
    obtain rfl : p = 24 := by simpa [Instr.selectedAt] using hsel
    rfl
  | sbusTermBad b =>
    obtain rfl : p = 24 := by simpa [Instr.selectedAt] using hsel
    exact (decodeChar_terminator b).trans (if_neg (by simpa [Instr.wf] using hwf))
  | lbDrop b => exact congrArg Except.ok (decodeConsole_high hwf)
  | lbIns b => exact congrArg Except.ok (decodeConsole_insertable hwf)
  | _ => rfl

theorem decode_selectedAt (h : decode p e bs = .ok i) : i.selectedAt p = true := by
  unfold decode at h
  split at h
  case h_1 => exact decodeChar_selectedAt h
  case h_5 => cases h; exact decodeConsole_selectedAt _ _
  case h_13 => cases h
  all_goals cases h; rfl

theorem encode_of_decode (h : decode p e bs = .ok i) : encode i = (e, bs) := by
  unfold decode at h
  split at h
  case h_1 => exact encode_of_decodeChar h
  case h_5 => cases h; exact encode_decodeConsole _
  case h_13 => cases h
  all_goals cases h; rfl

/-- Settles O2, one lemma about `decode` for each part. -/
theorem decodedOperationIsAdmittedSelectedAndItsOwnCall :
    Obligations.DecodedOperationIsAdmittedSelectedAndItsOwnCall :=
  fun _ _ _ _ h => ⟨decode_wf h, decode_selectedAt h, encode_of_decode h⟩

/-- Settles O5: the classes are the lemmas above; they are counted by the test on the byte that stands for
each. -/
theorem consoleByteDecodesByItsClass : Obligations.ConsoleByteDecodesByItsClass := by
  refine ⟨⟨rfl, rfl, rfl, rfl, rfl, rfl, rfl⟩,
    fun b hb => decodeConsole_high (getLsbD_seven_iff.2 hb), fun b hb hcode => ?_, ?_, ?_⟩
  · have hlow : ¬ b.getLsbD 7 = true := fun h => absurd (getLsbD_seven_iff.1 h) (by omega)
    rw [decodeConsole_of_not_code (Bool.eq_false_of_not_eq_true (mt isControlCode_iff.1 hcode)),
      if_neg hlow]
  · simp only [decodeConsole_eq_lbDrop_iff, Bool.decide_eq_true]
    rfl
  · simp only [decodeConsole_eq_lbIns_iff, Bool.decide_eq_true]
    rfl

/-- Settles O7: each byte is `encode` of its operation, at a position that selects it. -/
theorem writtenOutBytesDecode : Obligations.WrittenOutBytesDecode :=
  have decodes := decodeOfEncodeGivesTheOperationBack
  ⟨decodes .sbusSync 0 rfl rfl, decodes (.sbusChan 0b00001111) 5 rfl rfl,
    decodes (.sbusFlags 0b00001100) 23 rfl rfl, decodes .sbusTermOk 24 rfl rfl,
    decodes .lbSol 0 rfl rfl, decodes .lbDel 0 rfl rfl, decodes (.lbIns 0b01111110) 0 rfl rfl,
    decodes (.lbDrop 0b10000000) 0 rfl rfl⟩

/-! ## The rows of the opcode table (R108) -/

section Rows

variable {lo hi : Nat} {v : Byte} {op : Byte → Instr}

/-- A row with a full mask fits one byte. -/
theorem ByteRow.fits_fixed : (⟨lo, hi, 0xFF, v, op⟩ : ByteRow).fits p b =
    (decide (lo ≤ p.toNat) && decide (p.toNat ≤ hi) && b == v) := by
  rw [ByteRow.fits, show b &&& 0xFF = b from BitVec.and_allOnes]

/-- A row with an empty mask fits every byte. -/
theorem ByteRow.fits_any : (⟨lo, hi, 0x00, 0x00, op⟩ : ByteRow).fits p b =
    (decide (lo ≤ p.toNat) && decide (p.toNat ≤ hi)) := by
  simp [ByteRow.fits]

theorem and_high_eq (b : Byte) : b &&& 0x80 = if b.getLsbD 7 then 0x80 else 0x00 :=
  BitVec.and_twoPow b 7

/-- The drop row fits the bytes with bit 7 set. -/
theorem ByteRow.fits_high : (⟨lo, hi, 0x80, 0x80, op⟩ : ByteRow).fits p b =
    (decide (lo ≤ p.toNat) && decide (p.toNat ≤ hi) && b.getLsbD 7) := by
  rw [ByteRow.fits, and_high_eq]
  cases b.getLsbD 7 <;> rfl

/-- The insert row fits the bytes with bit 7 clear. -/
theorem ByteRow.fits_low : (⟨lo, hi, 0x80, 0x00, op⟩ : ByteRow).fits p b =
    (decide (lo ≤ p.toNat) && decide (p.toNat ≤ hi) && !b.getLsbD 7) := by
  rw [ByteRow.fits, and_high_eq]
  cases b.getLsbD 7 <;> rfl

end Rows

/-- Of the rows of a position the one with a fixed byte comes first, as the rule tests that byte first. -/
theorem decodeRows_sbusRows (h : decodeChar p b = .ok i) : decodeRows sbusRows p b = some i := by
  simp only [sbusRows, decodeRows, ByteRow.fits_fixed, ByteRow.fits_any]
  rcases decodeChar_cases h with ⟨rfl, rfl, rfl⟩ | ⟨rfl, hb, rfl⟩ | ⟨h0, h22, rfl⟩ | ⟨rfl, rfl⟩ |
    ⟨rfl, rfl, rfl⟩ | ⟨rfl, hb, rfl⟩
  case inr.inl | inr.inr.inr.inr.inr => simpa using hb
  case inr.inr.inl =>
    have hpos : p.toNat ≠ 0 ∧ 1 ≤ p.toNat ∧ p.toNat ≤ 22 := by
      refine ⟨?_, ?_, ?_⟩ <;> bv_omega
    simp only [Nat.le_zero, hpos, decide_true, decide_false, Bool.and_false, Bool.false_and,
      Bool.and_self, Bool.false_eq_true, if_true, if_false]
  all_goals rfl

/-- The console rows stand in the order of the tests of R101. -/
theorem decodeRows_consoleRows (p : Position) (b : Byte) :
    decodeRows consoleRows p b = some (decodeConsole b) := by
  have hp : p.toNat ≤ 31 := by omega
  simp only [consoleRows, decodeRows, ByteRow.fits_fixed, ByteRow.fits_high, ByteRow.fits_low, hp,
    Nat.zero_le, decide_true, Bool.true_and, beq_iff_eq, decodeConsole, apply_ite some]
  cases b.getLsbD 7 <;> rfl

/-- Settles O6: `decodeRows_sbusRows` at the positions that are held, and `decodeRows_consoleRows`. -/
theorem tableRowsDecodeAsTheRules : Obligations.TableRowsDecodeAsTheRules := by
  refine ⟨fun p b hp => ?_, fun p b => ⟨_, decodeRows_consoleRows p b, rfl⟩⟩
  obtain ⟨i, hi⟩ := decodeChar_total hp b
  exact ⟨i, decodeRows_sbusRows hi, hi⟩

end Sys2Proof

namespace Sys2Proof.Machine

variable {B : Nat → Byte} {k j : Nat}

/-! ## The closed form of the channels (R93, R95) -/

/-- The 11 stream bits from bit `11*k` on, cut out of the three bytes they can lie in: what the table of
R95 gives for every channel once the shifts beyond a channel's width are left out. -/
def windowChannel (V : Nat → Nat) (k : Nat) : Nat :=
  (V (11 * k / 8 + 1) >>> (11 * k % 8) ||| V (11 * k / 8 + 2) <<< (8 - 11 * k % 8) |||
    V (11 * k / 8 + 3) <<< (16 - 11 * k % 8)) &&& 0x7FF

/-- A byte shifted by a channel's width or more gives nothing to the channel. -/
theorem or_shiftLeft_and_channel (x v : Nat) {n : Nat} (hn : 11 ≤ n) :
    (x ||| v <<< n) &&& 0x7FF = x &&& 0x7FF := by
  have hv : v <<< n &&& 0x7FF = 0 := by
    rw [show (0x7FF : Nat) = 2 ^ 11 - 1 from rfl, Nat.and_two_pow_sub_one_eq_mod, Nat.shiftLeft_eq]
    exact Nat.mod_eq_zero_of_dvd (Dvd.dvd.mul_left (pow_dvd_pow 2 hn) v)
  rw [Nat.and_or_distrib_right, hv, Nat.or_zero]

theorem closedChannels_eq_window (V : Nat → Nat) (hk : k < 16) :
    (closedChannels V).getD k 0 = windowChannel V k := by
  interval_cases k <;>
    simp [closedChannels, windowChannel, or_shiftLeft_and_channel]

theorem windowChannel_lt (V : Nat → Nat) : windowChannel V k < 2 ^ 11 :=
  Nat.and_lt_two_pow _ (by decide)

/-- Bit `j` of the window is stream bit `11*k + j`, which lies in data byte `(11*k + j) / 8 + 1`. -/
theorem testBit_windowChannel (hj : j < 11) : (windowChannel (fun p => (B p).toNat) k).testBit j =
    (B ((11 * k + j) / 8 + 1)).getLsbD ((11 * k + j) % 8) := by
  have hmask : (0x7FF : Nat).testBit j = true := by
    rw [show (0x7FF : Nat) = 2 ^ 11 - 1 from rfl, Nat.testBit_two_pow_sub_one, decide_eq_true hj]
  simp only [windowChannel, Nat.testBit_and, hmask, Bool.and_true, Nat.testBit_or,
    Nat.testBit_shiftRight, Nat.testBit_shiftLeft, BitVec.testBit_toNat]
  have hr : 11 * k % 8 < 8 := Nat.mod_lt _ (by decide)
  have hn : 11 * k + j = 8 * (11 * k / 8) + (11 * k % 8 + j) := by omega
  rw [hn]
  generalize 11 * k / 8 = q at *
  generalize 11 * k % 8 = r at *
  rcases Nat.lt_or_ge (r + j) 8 with h8 | h8
  · rw [show (8 * q + (r + j)) / 8 = q by omega, show (8 * q + (r + j)) % 8 = r + j by omega]
    simp [show ¬ 8 - r ≤ j by omega, show ¬ 16 - r ≤ j by omega]
  rw [BitVec.getLsbD_of_ge _ (r + j) h8, Bool.false_or]
  rcases Nat.lt_or_ge (r + j) 16 with h16 | h16
  · rw [show (8 * q + (r + j)) / 8 = q + 1 by omega,
      show (8 * q + (r + j)) % 8 = j - (8 - r) by omega]
    simp [show 8 - r ≤ j by omega, show ¬ 16 - r ≤ j by omega]
  · rw [show (8 * q + (r + j)) / 8 = q + 2 by omega,
      show (8 * q + (r + j)) % 8 = j - (16 - r) by omega,
      BitVec.getLsbD_of_ge _ (j - (8 - r)) (by omega)]
    simp [show 16 - r ≤ j by omega]

/-- A channel whose stream bits are those of the data bytes is the closed form's. -/
theorem channel_eq_closedChannels {f : SbusFrame} (hk : k < 16)
    (h : ∀ n < 176, f.streamBit n = (B (n / 8 + 1)).getLsbD (n % 8)) :
    (f.channel k).toNat = (closedChannels fun p => (B p).toNat).getD k 0 := by
  rw [closedChannels_eq_window _ hk]
  refine Nat.eq_of_testBit_eq fun j => ?_
  rcases Nat.lt_or_ge j 11 with hj | hj
  · rw [testBit_windowChannel hj, ← h (11 * k + j) (by omega), BitVec.testBit_toNat,
      SbusFrame.streamBit, show (11 * k + j) / 11 = k by omega,
      show (11 * k + j) % 11 = j by omega]
  · have hwide : 2 ^ 11 ≤ 2 ^ j := Nat.pow_le_pow_right (by decide) hj
    rw [Nat.testBit_lt_two_pow ((f.channel k).isLt.trans_le hwide),
      Nat.testBit_lt_two_pow ((windowChannel_lt _).trans_le hwide)]

/-- Settles O35: `deliver_frame` says what the accumulator's stream bits are, and by
`channel_eq_closedChannels` that is the closed form. -/
theorem decodedChannelsAreTheClosedForm : Obligations.DecodedChannelsAreTheClosedForm := by
  intro s B h0
  obtain ⟨t, hdeliver, -, hbits, h17, h18, hlost, hsafe, -, -, hlatch, -⟩ :=
    deliver_frame (data := (List.range 22).map fun i => B (i + 1)) (fb := B 23) (x := 0x00) h0 rfl
  obtain ⟨hlast, -⟩ := hlatch rfl
  refine ⟨t, hdeliver, ?_⟩
  rw [hlast]
  refine ⟨fun k hk => channel_eq_closedChannels hk fun n hn => ?_, h17, h18, hlost, hsafe⟩
  have hbyte : n / 8 < 22 := by omega
  simpa [List.getD, hbyte] using hbits n hn

end Sys2Proof.Machine

/-! SUPPORT. The statements of spec/40_sbus_decoder.md: the one operation that position and byte select, what each
operation of the decoder does, and what runs of bytes do: the position they lead to, the frames they complete. -/

namespace Sys2Proof

/-- Settles O3: the operation is the one `decodeChar` answers, and by O1 every other candidate is that one. -/
theorem processCharSelectsExactlyOneOperation : Obligations.ProcessCharSelectsExactlyOneOperation := by
  intro p b hp
  obtain ⟨i, hi⟩ := decodeChar_total hp b
  refine ⟨i, ⟨decodeChar_wf hi, decodeChar_selectedAt hi, encode_of_decodeChar hi⟩, ?_⟩
  rintro j ⟨hwf, hsel, henc⟩
  have hj : decode p (encode j).1 (encode j).2 = .ok j :=
    decodeOfEncodeGivesTheOperationBack j p hwf hsel
  rw [henc] at hj
  exact Except.ok.inj (hj.symm.trans hi)

end Sys2Proof

namespace Sys2Proof.Machine

variable {s t : State} {i : Instr} {b : Byte} {bs : List Byte} {xs rest : List Stimulus}

/-! ## The operations one by one (R131 to R139) -/

theorem exec_sbusSkip (h : s.dec.pos = 0) (b : Byte) :
    exec (.sbusSkip b) s = .next (s.finish (.frameValid false) []) :=
  if_pos h

theorem exec_sbusSync (h : s.dec.pos = 0) :
    exec .sbusSync s = .next ((s.withDec s.dec.sync).finish (.frameValid false) []) :=
  if_pos h

theorem exec_sbusFlags (h : s.dec.pos = 23) (b : Byte) :
    exec (.sbusFlags b) s =
      .next ((s.withDec (s.dec.flagsByte b)).finish (.frameValid false) []) :=
  if_pos h

theorem exec_sbusTermOk (h : s.dec.pos = 24) :
    exec .sbusTermOk s = .next ((s.withDec s.dec.complete).finish (.frameValid true) []) :=
  if_pos h

theorem exec_sbusTermBad (h : s.dec.pos = 24) (b : Byte) :
    exec (.sbusTermBad b) s = .next ((s.withDec s.dec.awaitSync).finish (.frameValid false) []) :=
  if_pos h

theorem exec_sbusIdle (s : State) :
    exec .sbusIdle s = .next ((s.withDec s.dec.awaitSync).finish .nothing []) :=
  rfl

theorem exec_sbusRead (s : State) :
    exec .sbusRead s = .next (s.finish (.lastFrame s.dec.lastValid s.dec.last) []) :=
  rfl

theorem exec_sbusReadacc (s : State) :
    exec .sbusReadacc s = .next (s.finish (.accFrame s.dec.acc) []) :=
  rfl

theorem sameButOutputs_finish (s : State) (r : Result) (cs : List XcvrCall) :
    SameButOutputs s (s.finish r cs) :=
  ⟨rfl, rfl, rfl, rfl, rfl, rfl, rfl⟩

theorem sameButDecoder_withDec_finish (s : State) (d : Decoder) (r : Result) (cs : List XcvrCall) :
    SameButDecoder s ((s.withDec d).finish r cs) :=
  ⟨rfl, rfl, rfl, rfl, rfl, rfl⟩

/-- Settles O20. -/
theorem skipIgnoresTheByte : Obligations.SkipIgnoresTheByte := fun s b h0 _ =>
  ⟨_, exec_sbusSkip h0 b, rfl, rfl, sameButOutputs_finish s _ _⟩

/-- Settles O21. -/
theorem syncClearsTheAccumulator : Obligations.SyncClearsTheAccumulator := fun s h0 =>
  ⟨_, exec_sbusSync h0, rfl, rfl, fun _ _ => SbusFrame.channel_zero, ⟨rfl, rfl, rfl, rfl⟩, rfl,
    ⟨rfl, rfl⟩, sameButDecoder_withDec_finish s _ _ _⟩

/-- Settles O22: `SbusFrame.streamBit_orByte` is the OR, bit by bit. -/
theorem dataByteIsOredIntoItsStreamBits : Obligations.DataByteIsOredIntoItsStreamBits := by
  intro s b h1 h22
  refine ⟨_, exec_sbusChan h1 h22 b, rfl, rfl, channelByte_pos h22,
    fun n _ => SbusFrame.streamBit_orByte h1 h22, ?_, ?_, ?_, ?_, ⟨rfl, rfl⟩,
    sameButDecoder_withDec_finish s _ _ _⟩
  · exact SbusFrame.orByte_ch17 _
  · exact SbusFrame.orByte_ch18 _
  · exact SbusFrame.orByte_frameLost _
  · exact SbusFrame.orByte_failsafe _

/-- Settles O24. -/
theorem flagsByteWritesTheFourFlags : Obligations.FlagsByteWritesTheFourFlags := fun s b h23 =>
  ⟨_, exec_sbusFlags h23 b, rfl, rfl, rfl, rfl, rfl, rfl,
    fun _ _ => SbusFrame.channel_withFlags, rfl, ⟨rfl, rfl⟩, sameButDecoder_withDec_finish s _ _ _⟩

/-- Settles O25. -/
theorem goodTerminatorLatchesTheFrame : Obligations.GoodTerminatorLatchesTheFrame := fun s h24 =>
  ⟨_, exec_sbusTermOk h24, rfl, rfl, rfl, rfl, rfl, rfl, sameButDecoder_withDec_finish s _ _ _⟩

/-- Settles O26. -/
theorem badTerminatorDropsTheFrame : Obligations.BadTerminatorDropsTheFrame := fun s b h24 _ =>
  ⟨_, exec_sbusTermBad h24 b, rfl, rfl, rfl, rfl, ⟨rfl, rfl⟩,
    sameButDecoder_withDec_finish s _ _ _⟩

/-- Settles O27. -/
theorem idleResetsThePositionOnly : Obligations.IdleResetsThePositionOnly := fun s =>
  ⟨_, exec_sbusIdle s, ⟨rfl, rfl⟩, rfl, rfl, ⟨rfl, rfl⟩, sameButDecoder_withDec_finish s _ _ _⟩

/-- Settles O28. -/
theorem frameReadsReturnTheFieldsAndChangeNothing :
    Obligations.FrameReadsReturnTheFieldsAndChangeNothing := fun s =>
  ⟨⟨_, exec_sbusRead s, rfl, rfl, sameButOutputs_finish s _ _⟩,
    ⟨_, exec_sbusReadacc s, rfl, rfl, sameButOutputs_finish s _ _⟩⟩

/-! ## One call of `process_char` (R130, R140) -/

/-- A call of `process_char` runs the operation that position and byte select, the later stimuli kept. -/
theorem step_processChar (hp : s.pending = .call (charRequest b) :: rest)
    (hd : decodeChar s.dec.pos b = .ok i) : step s = exec i (s.withPending rest) :=
  step_call hp rfl hd (decodeChar_ne_reset hd)

/-- The position after `process_char(b)` at position `p` (R131 to R136). -/
def nextPosition (p : Nat) (b : Byte) : Nat :=
  if p = 0 then if b = 0x0F then 1 else 0
  else if p ≤ 23 then p + 1 else 0

theorem nextPosition_sync : nextPosition 0 0x0F = 1 := rfl

theorem nextPosition_inside {p : Nat} (h0 : p ≠ 0) (h23 : p ≤ 23) : nextPosition p b = p + 1 := by
  rw [nextPosition, if_neg h0, if_pos h23]

/-- Everything a byte's operation says of the position and the result: it returns true exactly on a good
terminator. -/
theorem exec_decodeChar (hd : decodeChar s.dec.pos b = .ok i) :
    ∃ t, exec i s = .next t ∧ t.pending = s.pending ∧
      t.result = .frameValid (decide (s.dec.pos.toNat = 24 ∧ b = 0x00)) ∧
      t.dec.pos.toNat = nextPosition s.dec.pos.toNat b := by
  rcases decodeChar_cases hd with ⟨h0, rfl, rfl⟩ | ⟨h0, hb, rfl⟩ | ⟨h0, h22, rfl⟩ | ⟨h23, rfl⟩ |
    ⟨h24, rfl, rfl⟩ | ⟨h24, hb, rfl⟩
  · exact ⟨_, exec_sbusSync h0, rfl, by simp [h0], by simp [h0, nextPosition]⟩
  · exact ⟨_, exec_sbusSkip h0 b, rfl, by simp [h0], by simpa [h0, nextPosition] using hb⟩
  · have h1 : 1 ≤ s.dec.pos.toNat := by bv_omega
    have h22 : s.dec.pos.toNat ≤ 22 := by bv_omega
    have hnot24 : s.dec.pos.toNat ≠ 24 := by omega
    refine ⟨_, exec_sbusChan h1 h22 b, rfl, by simp [hnot24], ?_⟩
    rw [nextPosition_inside (by omega) (by omega)]
    exact channelByte_pos h22
  · exact ⟨_, exec_sbusFlags h23 b, rfl, by simp [h23], by simp [h23, nextPosition]⟩
  · exact ⟨_, exec_sbusTermOk h24, rfl, by simp [h24], by simp [h24, nextPosition]⟩
  · exact ⟨_, exec_sbusTermBad h24 b, rfl, by simpa [h24] using hb, by simp [h24, nextPosition]⟩

/-- A call of `process_char` at a held position is done in one step. -/
theorem step_processChar_completes (hp : s.pending = .call (charRequest b) :: rest)
    (h24 : s.dec.pos.toNat ≤ 24) :
    ∃ t, step s = .next t ∧ t.pending = rest ∧
      t.result = .frameValid (decide (s.dec.pos.toNat = 24 ∧ b = 0x00)) ∧
      t.dec.pos.toNat = nextPosition s.dec.pos.toNat b := by
  obtain ⟨i, hi⟩ := decodeChar_total h24 b
  rw [step_processChar hp hi]
  exact exec_decodeChar (s := s.withPending rest) hi

/-- Settles O30. -/
theorem processCharReturnsTrueExactlyOnAGoodTerminator :
    Obligations.ProcessCharReturnsTrueExactlyOnAGoodTerminator := by
  intro s b rest hp h24
  obtain ⟨t, ht, hrest, hresult, -⟩ := step_processChar_completes hp h24
  exact ⟨t, ht, hrest, hresult⟩

/-- Settles O4: for each condition, what `decodeChar` answers under it. -/
theorem processCharPerformsTheSelectedOperation :
    Obligations.ProcessCharPerformsTheSelectedOperation := by
  intro s b rest hp
  have hpos : ∀ q : Position, s.dec.pos.toNat = q.toNat → s.dec.pos = q :=
    fun _ => BitVec.eq_of_toNat_eq
  refine ⟨fun h0 hb => ?_, fun h0 hb => ?_, fun h1 h22 => ?_, fun h23 => ?_, fun h24 hb => ?_,
    fun h24 hb => ?_, fun h24 => ?_⟩
  · exact step_processChar hp (by rw [hpos 0 h0, decodeChar_zero, if_neg hb])
  · exact step_processChar hp (by rw [hpos 0 h0, decodeChar_zero, if_pos hb])
  · exact step_processChar hp (decodeChar_data (by bv_omega) (by bv_omega) b)
  · exact step_processChar hp (by rw [hpos 23 h23, decodeChar_flags])
  · exact step_processChar hp (by rw [hpos 24 h24, decodeChar_terminator, if_pos hb])
  · exact step_processChar hp (by rw [hpos 24 h24, decodeChar_terminator, if_neg hb])
  · obtain ⟨t, ht, -, hresult, -⟩ := step_processChar_completes hp h24
    exact ⟨t, _, ht, hresult⟩

/-! ## Runs of bytes: the position, and how many frames are completed (R140, R144) -/

/-- How many of the reports are of a completed frame. -/
abbrev framesIn (out : List Report) : Nat :=
  (out.filter fun r => r.1 = .frameValid true).length

theorem framesIn_cons (v : Bool) (cs : List XcvrCall) (out : List Report) :
    framesIn ((.frameValid v, cs) :: out) = v.toNat + framesIn out := by
  cases v <;> simp [framesIn, Nat.add_comm]

theorem nextPosition_le {p : Nat} (b : Byte) (h : p ≤ 24) : nextPosition p b ≤ 24 := by
  unfold nextPosition
  split_ifs <;> omega

/-- What pays for R140: a byte advances the position by one at most, and the byte that completes a frame
takes it from 24 to 0. -/
theorem nextPosition_frame_le {p : Nat} (b : Byte) :
    25 * (decide (p = 24 ∧ b = 0x00)).toNat + nextPosition p b ≤ p + 1 := by
  by_cases h : p = 24 ∧ b = 0x00
  · obtain ⟨rfl, rfl⟩ := h
    decide
  · rw [decide_eq_false h, Bool.toNat_false, Nat.mul_zero, Nat.zero_add]
    unfold nextPosition
    split_ifs <;> omega

/-- Every run of bytes from a held position is accepted; its position is the bytes' one after the other,
and every frame it completes takes 25 bytes, those already consumed at its beginning included. -/
theorem deliver_sbusRx (h24 : s.dec.pos.toNat ≤ 24) :
    ∃ out t, deliver (sbusRx bs) s = some (out, t) ∧
      t.dec.pos.toNat = bs.foldl nextPosition s.dec.pos.toNat ∧
      25 * framesIn out + t.dec.pos.toNat ≤ s.dec.pos.toNat + bs.length := by
  induction bs generalizing s with
  | nil => exact ⟨[], s, rfl, rfl, by simp [framesIn]⟩
  | cons b bs ih =>
    obtain ⟨t, ht, -, hresult, hpos⟩ :=
      step_processChar_completes (s := s.withPending [.call (charRequest b)]) rfl h24
    rw [State.withPending_dec] at hresult hpos
    obtain ⟨out, u, hu, hupos, hframes⟩ := ih (s := t) (by rw [hpos]; exact nextPosition_le b h24)
    have hbyte := nextPosition_frame_le (p := s.dec.pos.toNat) b
    refine ⟨_, u, deliver_call (by simp [charRequest]) ht hu, ?_, ?_⟩
    · rw [hupos, hpos, List.foldl_cons]
    · rw [hpos] at hframes
      rw [hresult, framesIn_cons, List.length_cons]
      omega

/-- Settles O31: two frames would take 50 bytes, and at most 24 + 25 are there. -/
theorem atMostOneFrameInTwentyFiveBytes : Obligations.AtMostOneFrameInTwentyFiveBytes := by
  intro s bs h24 hlen
  obtain ⟨out, t, hdeliver, -, hframes⟩ := deliver_sbusRx (bs := bs) h24
  have hone : framesIn out ≤ 1 := by omega
  exact ⟨out, t, hdeliver, hone⟩

/-- Inside a frame the position counts the bytes, up to the terminator (R144). -/
theorem foldl_nextPosition_inside {p : Nat} (h1 : 1 ≤ p) (h24 : p ≤ 24) (h25 : p + bs.length ≤ 25) :
    bs.foldl nextPosition p = if p + bs.length ≤ 24 then p + bs.length else 0 := by
  induction bs generalizing p with
  | nil => exact (if_pos h24).symm
  | cons b bs ih =>
    rw [List.length_cons] at h25
    rw [List.foldl_cons, List.length_cons]
    by_cases h : p = 24
    · obtain rfl : bs = [] := List.eq_nil_of_length_eq_zero (by omega)
      subst h
      rfl
    · rw [nextPosition_inside (by omega) (by omega), ih (by omega) (by omega) (by omega),
        Nat.add_right_comm, Nat.add_assoc]

/-- Settles O36. -/
theorem noResynchronisationInsideAFrame : Obligations.NoResynchronisationInsideAFrame := by
  intro s bs h0 hlen
  obtain ⟨out, t, hdeliver, hpos, -⟩ :=
    deliver_sbusRx (s := s) (bs := 0x0F :: bs) (by simp [h0])
  refine ⟨out, t, hdeliver, ?_⟩
  have hsync : nextPosition s.dec.pos.toNat 0x0F = 1 := by rw [h0]; exact nextPosition_sync
  rw [hpos, List.foldl_cons, hsync, foldl_nextPosition_inside le_rfl (by omega) (by omega)]
  split_ifs <;> omega

/-! ## Whole frames (R141, R142, R143) -/

/-- Data byte `i + 1` of a packed frame, bit by bit: the stream bits of the frame in order (R93, R109). -/
theorem getLsbD_packedData (f : SbusFrame) {n : Nat} (hn : n < 176) :
    (((List.range 22).map fun i => packByte f.ch (i + 1)).getD (n / 8) 0).getLsbD (n % 8) =
      f.streamBit n := by
  have hbyte : n / 8 < 22 := by omega
  have hbit := getLsbD_packByte f (p := n / 8 + 1) (j := n % 8) (by omega) (by omega) (by omega)
  rw [show 8 * (n / 8 + 1 - 1) + n % 8 = n by omega] at hbit
  simpa [List.getD, hbyte] using hbit

/-- Settles O32: `deliver_frame` gives the latched frame bit by bit, `getLsbD_packedData` and
`getLsbD_packFlags` say that these are the bits of `f`. -/
theorem packedFrameRoundTrips : Obligations.PackedFrameRoundTrips := by
  intro s f h0
  obtain ⟨t, hdeliver, hpos, hbits, h17, h18, hlost, hsafe, hline, hqueue, hlatch, -⟩ :=
    deliver_frame (data := (List.range 22).map fun i => packByte f.ch (i + 1)) (fb := packFlags f)
      (x := 0x00) h0 rfl
  obtain ⟨hlast, hvalid⟩ := hlatch rfl
  obtain ⟨f17, f18, flost, fsafe⟩ := getLsbD_packFlags f
  have hacc : t.dec.acc = f :=
    SbusFrame.ext_streamBit (fun n hn => (hbits n hn).trans (getLsbD_packedData f hn))
      (h17.trans f17) (h18.trans f18) (hlost.trans flost) (hsafe.trans fsafe)
  exact ⟨t, hdeliver, hpos, hvalid, hlast.trans hacc, hline, hqueue⟩

/-- Settles O33: `deliver_frame` with a bad terminator, then O32. -/
theorem badFrameIsDroppedAndTheNextDecodes : Obligations.BadFrameIsDroppedAndTheNextDecodes := by
  intro s bs x f h0 hlen hx
  obtain ⟨data, fb, rfl⟩ : ∃ data fb, bs = data ++ [fb] :=
    (List.eq_nil_or_concat' bs).resolve_left fun h => by simp [h] at hlen
  have hdata : data.length = 22 := by simpa using hlen
  obtain ⟨t, hdeliver, hpos, -, -, -, -, -, -, -, -, hdropped⟩ :=
    deliver_frame (fb := fb) (x := x) h0 hdata
  obtain ⟨u, hframe, hupos, hvalid, hlast, -, -⟩ := packedFrameRoundTrips t f hpos
  refine ⟨t, u, ?_, hpos, hdropped hx, hframe, hupos, hvalid, hlast⟩
  rw [decide_eq_false hx] at hdeliver
  simpa using hdeliver

/-- Settles O34: an idle event leaves position 0, from where O32 speaks. -/
theorem frameAfterIdleDecodesFromAnyState : Obligations.FrameAfterIdleDecodesFromAnyState := by
  intro s f
  obtain ⟨u, hframe, hpos, hvalid, hlast, -, -⟩ :=
    packedFrameRoundTrips ((s.withDec s.dec.awaitSync).finish .nothing []) f rfl
  exact ⟨_, u, exec_sbusIdle s, hframe, hpos, hvalid, hlast⟩

/-! ## Between frames (R131, R137, R139) -/

theorem Decoder.awaitSync_of_pos {d : Decoder} (h : d.pos = 0) : d.awaitSync = d := by
  unfold Decoder.awaitSync
  rw [← h]

/-- An idle event, or a byte that is not the sync byte. -/
abbrev Stimulus.IsIdleOrSkip (x : Stimulus) : Prop :=
  x = .call idleRequest ∨ ∃ b, b ≠ 0x0F ∧ x = .call (charRequest b)

/-- At position 0 neither changes the decoder. -/
theorem deliver_idleOrSkip (h0 : s.dec.pos = 0) (hxs : ∀ x ∈ xs, x.IsIdleOrSkip) :
    ∃ out u, deliver xs s = some (out, u) ∧ u.dec = s.dec := by
  induction xs generalizing s with
  | nil => exact ⟨[], s, rfl, rfl⟩
  | cons x xs ih =>
    obtain ⟨r, t, rfl, hr, ht, hdec⟩ : ∃ r t, x = .call r ∧ r.entry ≠ .processSequence ∧
        step (s.withPending [.call r]) = .next t ∧ t.dec = s.dec := by
      rcases hxs x List.mem_cons_self with rfl | ⟨b, hb, rfl⟩
      · exact ⟨idleRequest, _, rfl, nofun, rfl, Decoder.awaitSync_of_pos h0⟩
      · have hd : decodeChar s.dec.pos b = .ok (.sbusSkip b) := by
          rw [h0, decodeChar_zero, if_neg hb]
        have hexec := exec_sbusSkip (s := s.withPending []) h0 b
        exact ⟨charRequest b, _, rfl, nofun, (step_char hd).trans hexec, rfl⟩
    obtain ⟨out, u, hu, hudec⟩ :=
      ih (s := t) (hdec ▸ h0) fun y hy => hxs y (List.mem_cons_of_mem _ hy)
    exact ⟨_, u, deliver_call hr ht hu, hudec.trans hdec⟩

/-- Settles O29: the good terminator leaves position 0, and from there `deliver_idleOrSkip`. -/
theorem completedFrameSurvivesSkipsAndIdles : Obligations.CompletedFrameSurvivesSkipsAndIdles := by
  intro s xs h24 hxs
  obtain ⟨out, u, hu, hdec⟩ :=
    deliver_idleOrSkip (s := (s.withDec s.dec.complete).finish (.frameValid true) []) rfl hxs
  refine ⟨_, out, u, exec_sbusTermOk h24, hu, ?_⟩
  rw [hdec]
  exact ⟨rfl, rfl, rfl⟩

end Sys2Proof.Machine

/-! SUPPORT. The statements of spec/41_line_buffer.md: what each operation of the line buffer does to the
content, the cursor and the cells it does not store to, and what a sequence of bytes does. -/

namespace Sys2Proof.Machine

variable {l m : LineBuffer} {n k : Nat} {b : Byte}

/-! ## The operations one by one (R161 to R170, R199) -/

theorem exec_lbSol (s : State) :
    exec .lbSol s = .next ((s.withLine s.line.startOfLine).finish .nothing []) :=
  rfl

theorem exec_lbLeft (s : State) :
    exec .lbLeft s = .next ((s.withLine s.line.left).finish .nothing []) :=
  rfl

theorem exec_lbEol (s : State) :
    exec .lbEol s = .next ((s.withLine s.line.endOfLine).finish .nothing []) :=
  rfl

theorem exec_lbRight (s : State) :
    exec .lbRight s = .next ((s.withLine s.line.right).finish .nothing []) :=
  rfl

theorem exec_lbBs (s : State) :
    exec .lbBs s = .next ((s.withLine s.line.backspace).finish .nothing []) :=
  rfl

theorem exec_lbKill (s : State) :
    exec .lbKill s = .next ((s.withLine s.line.killToEnd).finish .nothing []) :=
  rfl

theorem exec_lbDel (s : State) :
    exec .lbDel s = .next ((s.withLine s.line.deleteForward).finish .nothing []) :=
  rfl

theorem exec_lbIns (s : State) (b : Byte) :
    exec (.lbIns b) s =
      .next ((s.withLine (s.line.insert s.params.lbCapacity b)).finish .nothing []) :=
  rfl

theorem exec_lbDrop (s : State) (b : Byte) : exec (.lbDrop b) s = .next (s.finish .nothing []) :=
  rfl

theorem exec_lbContent (s : State) :
    exec .lbContent s = .next (s.finish (.text s.line.content) []) :=
  rfl

theorem exec_suiContent (s : State) :
    exec .suiContent s = .next (s.finish (.text s.line.content) []) :=
  rfl

theorem returnsNothing_finish (s : State) : ReturnsNothing (s.finish .nothing []) :=
  ⟨rfl, rfl⟩

theorem sameButLine_withLine_finish (s : State) (l : LineBuffer) (r : Result) (cs : List XcvrCall) :
    SameButLine s ((s.withLine l).finish r cs) :=
  ⟨rfl, rfl, rfl, rfl, rfl, rfl⟩

/-! ## The cursor movements and the operations that store no cell (R161 to R164, R166, R169) -/

/-- Settles O38: with `CUR <= LEN` the case split of each movement is a clamp. -/
theorem cursorMovesClampAndKeepTheText : Obligations.CursorMovesClampAndKeepTheText := by
  intro s hcur
  obtain ⟨hlbuf, hllen, hlcur⟩ := s.line.left_spec
  obtain ⟨hrbuf, hrlen, hrcur⟩ := s.line.right_spec
  have hframe (l : LineBuffer) : SameButLine s ((s.withLine l).finish .nothing []) :=
    sameButLine_withLine_finish s l _ _
  refine ⟨⟨_, exec_lbSol s, returnsNothing_finish _, rfl, rfl, rfl, hframe _⟩,
    ⟨_, exec_lbLeft s, returnsNothing_finish _, ?_, hllen, hlbuf, hframe _⟩,
    ⟨_, exec_lbEol s, returnsNothing_finish _, rfl, rfl, rfl, hframe _⟩,
    ⟨_, exec_lbRight s, returnsNothing_finish _, ?_, hrlen, hrbuf, hframe _⟩⟩
  · rw [State.finish_line, State.withLine_line, hlcur]
    omega
  · rw [State.finish_line, State.withLine_line, hrcur]
    split_ifs <;> omega

/-- The content before the cursor is what kill-to-end leaves (R166). -/
theorem LineBuffer.content_killToEnd (h : l.cur ≤ l.len) :
    l.killToEnd.content = l.content.take l.cur := by
  refine LineBuffer.content_eq (by simpa using h) fun i hi => ?_
  rw [LineBuffer.killToEnd_len] at hi
  rw [List.getElem?_take_of_lt hi, LineBuffer.content_getElem?, if_pos (hi.trans_le h),
    LineBuffer.killToEnd_buf]

/-- Settles O40. -/
theorem killTruncatesAtTheCursor : Obligations.KillTruncatesAtTheCursor := fun s hcur =>
  ⟨_, exec_lbKill s, returnsNothing_finish _, sameButLine_withLine_finish s _ _ _,
    LineBuffer.content_killToEnd hcur, rfl, rfl, fun _ => rfl⟩

/-- Settles O43: `LB.DROP` looks at no byte, so its premise on the byte is not used. -/
theorem highByteIsDropped : Obligations.HighByteIsDropped := fun s b _ =>
  ⟨_, exec_lbDrop s b, returnsNothing_finish s, sameButOutputs_finish s _ _⟩

/-! ## A byte taken out of the content (R165, R167) -/

/-- The cell `k` of `l` taken out: the cells after it that hold content moved down by one, no other
cell stored to. -/
structure LineBuffer.Removed (k : Nat) (l m : LineBuffer) : Prop where
  len : m.len = l.len - 1
  read : ∀ a, Memory.read m.buf a =
    if k ≤ a ∧ a + 1 < l.len then Memory.read l.buf (a + 1) else Memory.read l.buf a

/-- A backspace takes one from the length wherever it takes one from the cursor, whatever the cells hold. -/
theorem LineBuffer.backspace_cur_len (h : 0 < l.cur) :
    l.backspace.cur = l.cur - 1 ∧ l.backspace.len = l.len - 1 := by
  rw [LineBuffer.backspace, if_pos h]
  exact ⟨rfl, rfl⟩

theorem LineBuffer.removed_backspace (hc : 0 < l.cur) (hl : l.cur ≤ l.len)
    (hw : Memory.wf l.buf = true) : LineBuffer.Removed (l.cur - 1) l l.backspace := by
  obtain ⟨-, hlen, hread, -, -⟩ := LineBuffer.backspace_spec hc hl hw
  exact ⟨hlen, hread⟩

theorem LineBuffer.removed_deleteForward (hc : l.cur < l.len) (hw : Memory.wf l.buf = true) :
    LineBuffer.Removed l.cur l l.deleteForward := by
  obtain ⟨-, hlen, hread, -, -⟩ := LineBuffer.deleteForward_spec hc hw
  exact ⟨hlen, hread⟩

/-- The content less its byte `k`. -/
theorem LineBuffer.Removed.content (h : LineBuffer.Removed k l m) (hk : k < l.len) :
    m.content = l.content.take k ++ l.content.drop (k + 1) := by
  rw [← List.eraseIdx_eq_take_drop_succ]
  refine LineBuffer.content_eq ?_ fun i hi => ?_
  · rw [List.length_eraseIdx_of_lt (by simpa using hk), LineBuffer.content_length, h.len]
  · have hi' : i + 1 < l.len := by
      have := h.len
      omega
    rw [List.getElem?_eraseIdx, h.read]
    by_cases hik : i < k
    · rw [if_pos hik, if_neg (by omega), LineBuffer.content_getElem?, if_pos (by omega)]
    · rw [if_neg hik, if_pos (by omega), LineBuffer.content_getElem?, if_pos hi']

/-- The cells before `k` and those from the new end on are not stored to (R172). -/
theorem LineBuffer.Removed.read_outside (h : LineBuffer.Removed k l m) {a : Nat}
    (ha : a < k ∨ l.len - 1 ≤ a) : Memory.read m.buf a = Memory.read l.buf a := by
  rw [h.read, if_neg (by omega)]

/-- Settles O39: at `CUR > 0` the cell `CUR-1` is removed. -/
theorem backspaceRemovesTheByteBeforeTheCursor :
    Obligations.BackspaceRemovesTheByteBeforeTheCursor := by
  rintro s ⟨hcur, -, -, hwf, -⟩
  refine ⟨_, exec_lbBs s, returnsNothing_finish _, sameButLine_withLine_finish s _ _ _,
    LineBuffer.backspace_zero, fun hpos => ?_⟩
  have hrem := LineBuffer.removed_backspace hpos hcur hwf
  obtain ⟨hcur', -⟩ := s.line.backspace_cur_len hpos
  have hcontent := hrem.content (by omega)
  rw [Nat.sub_add_cancel hpos] at hcontent
  exact ⟨hcontent, hcur', hrem.len, fun a ha => hrem.read_outside ha⟩

/-- Settles O41: at `CUR < LEN` the cell `CUR` is removed. -/
theorem deleteForwardRemovesTheByteAtTheCursor :
    Obligations.DeleteForwardRemovesTheByteAtTheCursor := by
  rintro s ⟨-, -, -, hwf, -⟩
  refine ⟨_, exec_lbDel s, returnsNothing_finish _, sameButLine_withLine_finish s _ _ _,
    fun hend => LineBuffer.deleteForward_end hend.ge, fun hlt => ?_⟩
  have hrem := LineBuffer.removed_deleteForward hlt hwf
  obtain ⟨hcur', -⟩ := LineBuffer.deleteForward_spec hlt hwf
  exact ⟨hrem.content hlt, hcur', hrem.len, fun a ha => hrem.read_outside ha⟩

/-! ## A byte put into the content (R168) -/

/-- The content with `b` put in at the cursor. -/
theorem LineBuffer.content_insert (hn : l.len < n) (hl : l.cur ≤ l.len)
    (hw : Memory.wf l.buf = true) :
    (l.insert n b).content = l.content.take l.cur ++ [b] ++ l.content.drop l.cur := by
  obtain ⟨-, hlen, hread, -, -⟩ := LineBuffer.insert_spec (b := b) hn hl hw
  have htake : (l.content.take l.cur).length = l.cur := by simpa using hl
  refine LineBuffer.content_eq ?_ fun i hi => ?_
  · simp [hlen]
    omega
  · rw [hread, List.append_assoc]
    rcases lt_trichotomy i l.cur with hlt | heq | hgt
    · rw [if_neg (by omega), if_neg (by omega), List.getElem?_append_left (by omega),
        List.getElem?_take_of_lt hlt, LineBuffer.content_getElem?, if_pos (by omega)]
    · rw [if_pos heq, List.getElem?_append_right (by omega), htake, heq, Nat.sub_self]
      rfl
    · obtain ⟨d, rfl⟩ : ∃ d, i = l.cur + (d + 1) := ⟨i - l.cur - 1, by omega⟩
      rw [if_neg (by omega), if_pos (by omega), List.getElem?_append_right (by omega), htake,
        Nat.add_sub_cancel_left, List.singleton_append, List.getElem?_cons_succ,
        List.getElem?_drop, LineBuffer.content_getElem?, if_pos (by omega)]
      rfl

/-- Settles O42: the cells stored to are read off `LineBuffer.insert_spec`. -/
theorem insertPutsTheByteAtTheCursorOrIsRefused :
    Obligations.InsertPutsTheByteAtTheCursorOrIsRefused := by
  rintro s b ⟨hcur, -, -, hwf, -⟩ -
  refine ⟨_, exec_lbIns s b, returnsNothing_finish _, sameButLine_withLine_finish s _ _ _,
    fun hfull => LineBuffer.insert_full hfull.ge, fun hroom => ?_⟩
  obtain ⟨hcur', hlen', hread, -, -⟩ := LineBuffer.insert_spec (b := b) hroom hcur hwf
  refine ⟨LineBuffer.content_insert hroom hcur hwf, hcur', hlen', fun a ha => ?_⟩
  rw [State.finish_line, State.withLine_line, hread, if_neg (by omega), if_neg (by omega)]

/-! ## The content read (R28, R170, R199) -/

/-- Every byte of the content is below 0x80 (R28). -/
theorem LineBuffer.Inv.content_lt (h : l.Inv n) (hb : b ∈ l.content) : b.toNat < 0x80 := by
  obtain ⟨-, -, hascii, -, -⟩ := h
  obtain ⟨i, hi⟩ := List.mem_iff_getElem?.1 hb
  rw [LineBuffer.content_getElem?] at hi
  split_ifs at hi with hlt
  have hbit := hascii i hlt
  rw [Option.some.inj hi] at hbit
  exact not_le.1 fun hge => Bool.false_ne_true (hbit.symm.trans (getLsbD_seven_iff.2 hge))

/-- Settles O44: both operations return `LineBuffer.content`. -/
theorem contentReturnsTheTextAndChangesNothing :
    Obligations.ContentReturnsTheTextAndChangesNothing := by
  intro s
  refine ⟨s.line.content, LineBuffer.content_length, fun i hi => ?_,
    fun hinv b hb => hinv.content_lt hb,
    ⟨_, exec_lbContent s, rfl, rfl, sameButOutputs_finish s _ _⟩,
    ⟨_, exec_suiContent s, rfl, rfl, sameButOutputs_finish s _ _⟩⟩
  rw [LineBuffer.content_getElem?, if_pos hi]

/-! ## A sequence of bytes and the same bytes as single keys (R171, R198) -/

/-- One key runs `SUI.PROCESS`. -/
theorem step_key (s : State) (b : Byte) :
    step (s.withPending [.call (keyRequest b)]) =
      .next (((s.withPending []).withLine
        (s.line.process s.params.lbCapacity b)).finish .nothing []) :=
  step_call (s := s.withPending [.call (keyRequest b)]) (i := .suiProcess b) rfl rfl rfl nofun

/-- Single keys edit the line one after the other and return nothing. -/
theorem deliver_keys (s : State) (bs : List Byte) :
    ∃ u, deliver (keys bs) s = some (List.replicate bs.length (.nothing, []), u) ∧
      u.line = s.line.processAll s.params.lbCapacity bs ∧ u.dec = s.dec ∧ u.queue = s.queue := by
  induction bs generalizing s with
  | nil => exact ⟨s, rfl, rfl, rfl, rfl⟩
  | cons b bs ih =>
    obtain ⟨u, hu, hline, hdec, hqueue⟩ := ih
      (((s.withPending []).withLine (s.line.process s.params.lbCapacity b)).finish .nothing [])
    exact ⟨u, deliver_call (by simp [keyRequest]) (step_key s b) hu, hline, hdec, hqueue⟩

/-- A call of `process_sequence` from a context that may issue it runs `LB.SEQ`. -/
theorem step_sequenceCall {c : Context} (hc : c = .console ∨ c = .foreground) (s : State)
    (bs : List Byte) :
    step (s.withPending [.call { sequenceRequest bs with context := c }]) =
      exec (.lbSeq bs) (s.withPending []) := by
  have hmay : c.mayIssue .processSequence = true := by rcases hc with rfl | rfl <;> rfl
  exact step_call (s := s.withPending [.call { sequenceRequest bs with context := c }])
    (i := .lbSeq bs) rfl hmay rfl nofun

/-- A delivered sequence edits the line as `processAll` says, and each of its bytes reports as a single
key does (logs 10, 13). -/
theorem deliver_sequenceCall {c : Context} (hc : c = .console ∨ c = .foreground) (s : State)
    (bs : List Byte) :
    ∃ out t, deliver [.call { sequenceRequest bs with context := c }] s = some (out, t) ∧
      t.line = s.line.processAll s.params.lbCapacity bs ∧ t.dec = s.dec ∧ t.queue = s.queue ∧
      (bs ≠ [] → out = List.replicate bs.length (.nothing, [])) := by
  cases bs with
  | nil =>
    have hstep : step (s.withPending [.call { sequenceRequest [] with context := c }]) =
        .next ((s.withPending []).finish .nothing []) := step_sequenceCall hc s []
    exact ⟨_, _, deliver_cons (settle_step (by simp) hstep (settle_done _ rfl)) deliver_nil,
      rfl, rfl, rfl, fun h => absurd rfl h⟩
  | cons b bs =>
    obtain ⟨t, ht, -, hline, hdec, hqueue, -⟩ := settle_sequence (k := bs.length + 1)
      (s := (((s.withPending []).withLine (s.line.process s.params.lbCapacity b)).withSequence
        bs).finish .nothing []) (Nat.le_succ _) (List.append_nil _)
    have hsettle := settle_step (by simp) (step_sequenceCall hc s (b :: bs)) ht
    exact ⟨_, t, deliver_cons hsettle deliver_nil, hline, hdec, hqueue, fun _ => List.append_nil _⟩

/-- Settles O45: both runs are `processAll` on the line. -/
theorem sequenceIsItsBytesOneByOne : Obligations.SequenceIsItsBytesOneByOne := by
  intro s bs c hc
  obtain ⟨out, t, hseq, hline, hdec, hqueue, hout⟩ := deliver_sequenceCall hc s bs
  obtain ⟨u, hkeys, huline, hudec, huqueue⟩ := deliver_keys s bs
  exact ⟨out, t, _, u, hseq, hkeys, hline.trans huline.symm, hline, hdec, hudec, hqueue, huqueue,
    rfl, hout⟩

/-! ## The line cleared by control codes (R174) -/

theorem LineBuffer.process_backspace : l.process n 0x08 = l.backspace :=
  rfl

/-- With the cursor at the end, as many backspaces as there are bytes clear the line. -/
theorem LineBuffer.processAll_backspaces (h : l.cur = l.len) :
    (l.processAll n (List.replicate l.len 0x08)).len = 0 ∧
      (l.processAll n (List.replicate l.len 0x08)).cur = 0 := by
  generalize hk : l.len = k
  induction k generalizing l with
  | zero => exact ⟨hk, h.trans hk⟩
  | succ k ih =>
    obtain ⟨hcur, hlen⟩ := l.backspace_cur_len (by omega)
    rw [List.replicate_succ, LineBuffer.processAll, LineBuffer.process_backspace]
    exact ih (by omega) (by omega)

/-- A sequence of bytes after its first is done after one step each; the line is as `processAll` says. -/
theorem exec_lbSeq_cons (s : State) (b : Byte) (bs : List Byte) :
    ∃ t u, exec (.lbSeq (b :: bs)) s = .next t ∧ steps bs.length t = some u ∧
      u.line = s.line.processAll s.params.lbCapacity (b :: bs) := by
  obtain ⟨t, u, ht, hu, -, -, hline⟩ := sequenceTakesOneStepPerByte s (b :: bs)
  exact ⟨t, u, ht, hu, hline⟩

/-- Settles O46: 0x01 puts the cursor where 0x0B cuts the line to nothing, 0x05 where every byte is
before it. -/
theorem theLineIsClearedByItsControlCodes : Obligations.TheLineIsClearedByItsControlCodes := by
  intro s
  constructor
  · obtain ⟨t, u, ht, hu, hline⟩ := exec_lbSeq_cons s 0x01 [0x0B]
    rw [show s.line.processAll s.params.lbCapacity [0x01, 0x0B] = s.line.startOfLine.killToEnd
      from rfl] at hline
    exact ⟨t, u, ht, hu, hline ▸ rfl, hline ▸ rfl⟩
  · obtain ⟨t, u, ht, hu, hline⟩ := exec_lbSeq_cons s 0x05 (List.replicate s.line.len 0x08)
    rw [List.length_replicate] at hu
    obtain ⟨hlen, hcur⟩ := LineBuffer.processAll_backspaces (l := s.line.endOfLine)
      (n := s.params.lbCapacity) rfl
    exact ⟨t, u, ht, hu, hline ▸ hlen, hline ▸ hcur⟩

end Sys2Proof.Machine

/-! SUPPORT. The statements of spec/42_serial_ui.md: what `write`, `on_event` and `process` of the Serial UI
do to the line buffer and the queue, and the capability calls they make. -/

namespace Sys2Proof.Machine

variable {s : State} {b v : Byte}

/-! ## `SUI.WRITE`, case by case (R192, R196, R200) -/

/-- Transmitter ready: the byte is handed on, and what the write answers is not looked at (D14). -/
theorem exec_suiWrite_ready (hready : s.console.transmitReady = true) :
    exec (.suiWrite b) s = .next (s.finish .ok
      [.isTransmitReady .console true, .writeByte .console b s.console.write]) :=
  if_pos hready

/-- Transmitter not ready and room in the queue: the byte is appended. -/
theorem exec_suiWrite_room (hready : s.console.transmitReady = false)
    (hroom : s.queue.length < s.params.oqCapacity) :
    exec (.suiWrite b) s =
      .next ((s.withQueue (s.queue ++ [b])).finish .ok [.isTransmitReady .console false]) := by
  simp [exec, execSuiWrite, hready, enqueue_room hroom]

/-- Transmitter not ready and the queue full: the byte is not accepted (R196, R200). -/
theorem exec_suiWrite_full (hready : s.console.transmitReady = false)
    (hfull : s.params.oqCapacity ≤ s.queue.length) :
    exec (.suiWrite b) s = .next (s.finish .wouldBlock [.isTransmitReady .console false]) := by
  simp [exec, execSuiWrite, hready, enqueue_full hfull]

/-- Settles O47, one `exec_suiWrite_…` for each case; the premises of the other two cases fail there. -/
theorem writeSendsQueuesOrWouldBlock : Obligations.WriteSendsQueuesOrWouldBlock := by
  intro s b
  have hsame (q : List Byte) (r : Result) (cs : List XcvrCall) :
      SameButSerialUi s ((s.withQueue q).finish r cs) := ⟨rfl, rfl, rfl, rfl, rfl⟩
  cases hready : s.console.transmitReady with
  | true =>
    exact ⟨_, exec_suiWrite_ready hready, rfl, hsame s.queue _ _, fun _ => ⟨rfl, rfl, rfl⟩, nofun,
      nofun⟩
  | false =>
    rcases lt_or_ge s.queue.length s.params.oqCapacity with hroom | hfull
    · exact ⟨_, exec_suiWrite_room hready hroom, rfl, hsame _ _ _, nofun,
        fun _ _ => ⟨rfl, rfl, rfl⟩, fun _ hfull => absurd hroom hfull.not_gt⟩
    · exact ⟨_, exec_suiWrite_full hready hfull, rfl, hsame s.queue _ _, nofun,
        fun _ hroom => absurd hroom hfull.not_gt, fun _ _ => ⟨rfl, rfl, rfl⟩⟩

/-- Settles O48: the bound is `exec_queue_bound`, and of the three cases of O47 only the last blocks. -/
theorem writeBlocksOnlyOnAFullQueue : Obligations.WriteBlocksOnlyOnAFullQueue := by
  intro s b hbound
  obtain ⟨t, ht, -, ⟨-, hparams, -⟩, hsent, hqueued, hblocked⟩ := writeSendsQueuesOrWouldBlock s b
  refine ⟨t, ht, hparams ▸ exec_queue_bound ht hbound, ?_⟩
  cases hready : s.console.transmitReady with
  | true =>
    obtain ⟨hok, -⟩ := hsent hready
    simp [hok]
  | false =>
    rcases hbound.lt_or_eq with hroom | hfull
    · obtain ⟨hok, -⟩ := hqueued hready hroom
      simp [hok, hroom.ne]
    · obtain ⟨hwould, hqueue, -⟩ := hblocked hready hfull.ge
      simp [hwould, hfull, hqueue]

/-! ## `SUI.PROCESS` (R198) -/

theorem exec_suiProcess (s : State) (b : Byte) :
    exec (.suiProcess b) s =
      .next ((s.withLine (s.line.process s.params.lbCapacity b)).finish .nothing []) :=
  rfl

/-- Settles O50: the decoded operation edits the line as `SUI.PROCESS` does, by `exec_decodeConsole`. -/
theorem uiProcessIsTheDecodedLineOperation : Obligations.UiProcessIsTheDecodedLineOperation :=
  fun s b => ⟨_, exec_suiProcess s b, exec_decodeConsole b s, returnsNothing_finish _,
    sameButLine_withLine_finish s _ _ _⟩

/-! ## The two branches of `SUI.EVENT` (R193, R194, R197) -/

/-- A byte ready and delivered is processed. -/
theorem State.receivedLine_of_byte (hready : s.console.receiveReady = true)
    (hread : s.console.read = .byte v) :
    s.receivedLine = s.line.process s.params.lbCapacity v := by
  rw [State.receivedLine, if_pos hready, hread]
  rfl

/-- With nothing ready, or a read that delivers no byte, the line stays. -/
theorem State.receivedLine_of_no_byte
    (h : s.console.receiveReady = false ∨ ∀ v, s.console.read ≠ .byte v) :
    s.receivedLine = s.line := by
  unfold State.receivedLine
  rcases h with hready | hread
  · exact if_neg (by simp [hready])
  · have hnone : s.console.read.delivered = none := by
      cases hr : s.console.read with
      | byte v => exact absurd hr (hread v)
      | wouldBlock | error => rfl
    rw [hnone, ite_self]

/-- The transmit branch asks for readiness and then writes at most the oldest byte. -/
theorem State.transmitCalls_eq :
    s.transmitCalls =
      if s.console.transmitReady then
        .isTransmitReady .console true ::
          (s.queue.take 1).map fun v => .writeByte .console v s.console.write
      else [.isTransmitReady .console false] := by
  unfold State.transmitCalls
  cases s.queue <;> rfl

theorem exec_suiEvent (s : State) :
    exec .suiEvent s = .next (((s.withLine s.receivedLine).withQueue s.drainedQueue).finish .nothing
      (s.receiveCalls ++ s.transmitCalls)) :=
  rfl

/-- Settles O49: the line is that of the receive branch, the queue that of the transmit branch, and the
calls are those of the two in this order. -/
theorem eventReceivesOneByteAndSendsOneByte :
    Obligations.EventReceivesOneByteAndSendsOneByte := by
  intro s
  refine ⟨_, exec_suiEvent s, rfl, ⟨rfl, rfl, rfl, rfl, rfl⟩, fun hready v hread => ?_,
    State.receivedLine_of_no_byte, fun hready v q hq => ?_, fun hidle => ?_, ?_⟩
  · exact ⟨_, exec_decodeConsole v s, State.receivedLine_of_byte hready hread⟩
  · rw [State.finish_queue, State.withQueue_queue, State.drainedQueue_eq, if_pos hready, hq,
      List.tail_cons]
  · rw [State.finish_queue, State.withQueue_queue, State.drainedQueue_eq]
    rcases hidle with hready | hempty
    · exact if_neg (by simp [hready])
    · rw [hempty, List.tail_nil, ite_self]
  · rw [State.finish_calls, State.transmitCalls_eq, State.receiveCalls]

end Sys2Proof.Machine

/-! SUPPORT. The statements of spec/60_exceptions.md: what the entry of a handler does, and which operations the
two handlers apply. -/

namespace Sys2Proof.Machine

variable {s : State} {a : Answers} {i : Instr} {b v : Byte} {rest : List Stimulus}

/-! ## Entering a handler (R226, R230, R235) -/

theorem step_enterSbus (hp : s.pending = .enterSbus a :: rest) :
    step s = .next (enterSbusHandler a rest s) := by
  rw [step, hp]

theorem step_enterConsole (hp : s.pending = .enterConsole a :: rest) :
    step s = .next (enterConsoleHandler a rest s) := by
  rw [step, hp]

theorem sameBlock_enterSbusHandler (a : Answers) (rest : List Stimulus) (s : State) :
    SameBlock s (enterSbusHandler a rest s) :=
  ⟨rfl, rfl, rfl, rfl⟩

theorem sameBlock_enterConsoleHandler (a : Answers) (rest : List Stimulus) (s : State) :
    SameBlock s (enterConsoleHandler a rest s) :=
  ⟨rfl, rfl, rfl, rfl⟩

/-- Settles O56. -/
theorem enteringAHandlerChangesNothingInTheBlock :
    Obligations.EnteringAHandlerChangesNothingInTheBlock := by
  rintro s a rest (hp | hp)
  · exact ⟨_, step_enterSbus hp, sameBlock_enterSbusHandler a rest s⟩
  · exact ⟨_, step_enterConsole hp, sameBlock_enterConsoleHandler a rest s⟩

/-! ## The console handler (R230) -/

/-- Settles O55: the entry makes the event the next call. What the entry reported is no input of `exec`, and
the event overwrites it. -/
theorem consoleHandlerAppliesOneEvent : Obligations.ConsoleHandlerAppliesOneEvent := by
  intro s a rest hp
  have hevent : step (enterConsoleHandler a rest s) =
      exec .suiEvent ((enterConsoleHandler a rest s).load (eventRequest a) rest) :=
    step_call rfl rfl rfl nofun
  refine ⟨_, exec_suiEvent _, ?_⟩
  rw [steps_succ (step_enterConsole hp), steps_succ (hevent.trans (exec_suiEvent _))]
  rfl

/-! ## The receive branch of the SBUS handler (R226, R229) -/

theorem sbusReceiveCalls_ready (h : a.receiveReady = true) :
    sbusReceiveCalls a = [.isReceiveReady .rcInput true, .readByte .rcInput a.read] :=
  if_pos h

theorem sbusReceiveCalls_notReady (h : a.receiveReady = false) :
    sbusReceiveCalls a = [.isReceiveReady .rcInput false] :=
  if_neg (by simp [h])

theorem receivedChars_of_byte (hready : a.receiveReady = true) (hread : a.read = .byte v) :
    receivedChars a = [.call (charRequest v)] := by
  rw [receivedChars, if_pos hready, hread]
  rfl

theorem receivedChars_of_no_byte
    (h : a.receiveReady = false ∨ a.read = .wouldBlock ∨ a.read = .error) : receivedChars a = [] := by
  unfold receivedChars
  rcases h with hready | hread | hread
  · exact if_neg (by simp [hready])
  · rw [hread]; exact ite_self _
  · rw [hread]; exact ite_self _

theorem enterSbusHandler_pending (a : Answers) (rest : List Stimulus) (s : State) :
    (enterSbusHandler a rest s).pending = receivedChars a ++ .sbusIdleBranch :: rest :=
  rfl

/-- A byte's operation makes no capability call, changes nothing but the decoder, and its decoder and result
are a function of the decoder it starts from. -/
theorem exec_decodeChar_eq (hd : decodeChar s.dec.pos b = .ok i) :
    ∃ d valid, ∀ s' : State, s'.dec = s.dec →
      exec i s' = .next ((s'.withDec d).finish (.frameValid valid) []) := by
  rcases decodeChar_cases hd with ⟨h0, rfl, rfl⟩ | ⟨h0, -, rfl⟩ | ⟨h0, h22, rfl⟩ | ⟨h23, rfl⟩ |
    ⟨h24, rfl, rfl⟩ | ⟨h24, -, rfl⟩
  · exact ⟨s.dec.sync, false, fun s' hs => hs ▸ exec_sbusSync (hs ▸ h0)⟩
  · exact ⟨s.dec, false, fun s' hs => hs ▸ exec_sbusSkip (hs ▸ h0) b⟩
  · exact ⟨s.dec.channelByte b, false,
      fun s' hs => hs ▸ exec_sbusChan (by rw [hs]; bv_omega) (by rw [hs]; bv_omega) b⟩
  · exact ⟨s.dec.flagsByte b, false, fun s' hs => hs ▸ exec_sbusFlags (hs ▸ h23) b⟩
  · exact ⟨s.dec.complete, true, fun s' hs => hs ▸ exec_sbusTermOk (hs ▸ h24)⟩
  · exact ⟨s.dec.awaitSync, false, fun s' hs => hs ▸ exec_sbusTermBad (hs ▸ h24) b⟩

/-! ## The idle branch of the SBUS handler (R227, R228) -/

/-- The call of `process_idle` resets the position and is done in one step. -/
theorem step_processIdle (hp : s.pending = .call idleRequest :: rest) :
    step s = .next (((s.withPending rest).withDec s.dec.awaitSync).finish .nothing []) :=
  step_call (i := .sbusIdle) hp rfl rfl nofun

theorem step_sbusIdleBranch (hp : s.pending = .sbusIdleBranch :: rest) :
    step s = .next (sbusIdleBranch rest s) := by
  rw [step, hp]

/-- What the idle branch does, from wherever it is the next stimulus: one question, and on an idle line one
`process_idle`. -/
theorem sbusIdleBranch_effect (hp : s.pending = .sbusIdleBranch :: rest) (ha : s.rcInput = a) :
    ∃ q, step s = .next q ∧ SameBlock s q ∧ q.calls = [.isLineIdle .rcInput a.lineIdle] ∧
      (a.lineIdle = false → q.pending = rest) ∧
      (a.lineIdle = true → ∃ t, step q = .next t ∧ t.dec = { s.dec with pos := 0 } ∧
        ReturnsNothing t ∧ t.line = s.line ∧ t.queue = s.queue ∧ t.pending = rest) := by
  subst ha
  refine ⟨_, step_sbusIdleBranch hp, ⟨rfl, rfl, rfl, rfl⟩, rfl, fun hbusy => if_neg (by simp [hbusy]),
    fun hidle => ?_⟩
  exact ⟨_, step_processIdle (if_pos hidle), rfl, ⟨rfl, rfl⟩, rfl, rfl, rfl⟩

/-! ## An entry of the SBUS handler (R226 to R229) -/

/-- Settles O54: no byte means no call before the idle branch, which then finds the block as it was. -/
theorem sbusHandlerWithoutAByteAppliesNoDecode :
    Obligations.SbusHandlerWithoutAByteAppliesNoDecode := by
  intro s a rest hp hnone
  have hidle : (enterSbusHandler a rest s).pending = .sbusIdleBranch :: rest := by
    rw [enterSbusHandler_pending, receivedChars_of_no_byte hnone, List.nil_append]
  obtain ⟨q, hq⟩ := sbusIdleBranch_effect hidle rfl
  exact ⟨_, q, step_enterSbus hp, sameBlock_enterSbusHandler a rest s, sbusReceiveCalls_ready,
    sbusReceiveCalls_notReady, hq⟩

/-- Settles O53: the byte's operation runs after the entry as it would before it, by `exec_decodeChar_eq`, and
the idle branch comes next. -/
theorem sbusHandlerDecodesTheByteBeforeTheIdle :
    Obligations.SbusHandlerDecodesTheByteBeforeTheIdle := by
  intro s a v rest hp hready hread h24
  obtain ⟨i, hi⟩ := decodeChar_total h24 v
  obtain ⟨d, valid, hexec⟩ := exec_decodeChar_eq hi
  have hcall : (enterSbusHandler a rest s).pending =
      .call (charRequest v) :: .sbusIdleBranch :: rest := by
    rw [enterSbusHandler_pending, receivedChars_of_byte hready hread, List.singleton_append]
  have hbyte := (step_processChar hcall hi).trans (hexec _ rfl)
  obtain ⟨q, hstep, hsame, hcalls, hbusy, hidle⟩ := sbusIdleBranch_effect
    (s := (((enterSbusHandler a rest s).withPending (.sbusIdleBranch :: rest)).withDec d).finish
      (.frameValid valid) []) rfl rfl
  refine ⟨i, _, _, _, q, hi, hexec s rfl, step_enterSbus hp, sameBlock_enterSbusHandler a rest s, ?_,
    hbyte, rfl, rfl, rfl, rfl, rfl, hstep, hsame, hcalls, hbusy, hidle, fun hpos hv => ?_⟩
  · exact hread ▸ sbusReceiveCalls_ready hready
  · have hok : i = .sbusTermOk := by
      rw [hpos, decodeChar_terminator, if_pos hv] at hi
      exact (Except.ok.inj hi).symm
    have hlatch := hexec s rfl
    rw [hok, exec_sbusTermOk hpos] at hlatch
    obtain rfl : s.dec.complete = d := congrArg State.dec (Host.Outcome.next.inj hlatch)
    exact ⟨rfl, rfl⟩

end Sys2Proof.Machine

/-! SUPPORT. The statements of spec/70_reset_and_hazards.md: what `RESET` puts in the block, and that no step
performs it. -/

namespace Sys2Proof.Machine

variable {s : State} {r : Request} {rest : List Stimulus}

/-! ## The operation (R260) -/

/-- `RESET` completes in every state, and leaves the constructed block behind. -/
theorem exec_reset (s : State) : exec .reset s = .next (s.construct.finish .nothing []) :=
  rfl

theorem SbusFrame.flagsClear_zero : SbusFrame.zero.FlagsClear :=
  ⟨rfl, rfl, rfl, rfl⟩

/-- Settles O57, by `exec_reset` and the invariants of the reset registers. -/
theorem resetSetsEveryElement : Obligations.ResetSetsEveryElement := fun s =>
  ⟨_, exec_reset s, ⟨rfl, rfl⟩, rfl, fun _ _ => ⟨SbusFrame.channel_zero, SbusFrame.channel_zero⟩,
    SbusFrame.flagsClear_zero, SbusFrame.flagsClear_zero, rfl, rfl, rfl, rfl, ⟨rfl, rfl, rfl, rfl⟩,
    Decoder.reset_inv, LineBuffer.reset_inv⟩

/-! ## The step refuses it (R261) -/

/-- A call of `construct` with the operand bytes it takes, which are none, is `RESET`. -/
theorem decode_construct {p : Position} {bs : List Byte}
    (h : EntryPoint.construct.takes bs.length = true) : decode p .construct bs = .ok .reset := by
  cases bs with
  | nil => rfl
  | cons b bs => cases h

/-- A call of `construct` is refused for its context (log 10), for its operand bytes (log 19), or because the
block is constructed already (log 14). -/
theorem step_construct_refused (hp : s.pending = .call r :: rest) (he : r.entry = .construct) :
    ∃ e, step s = .refused e := by
  cases hc : r.context.mayIssue r.entry with
  | false => exact ⟨_, step_wrongContext hp hc⟩
  | true =>
    cases hn : r.entry.takes r.bytes.length with
    | false => exact ⟨_, step_badCall hp hc (decode_operandCount hn)⟩
    | true => exact ⟨_, step_call_reset hp hc (he ▸ decode_construct (he ▸ hn))⟩

/-- `RESET` works on the whole block, so it conflicts with every operation (log 11). -/
theorem conflict_construct {e f : EntryPoint} (h : e = .construct ∨ f = .construct) :
    conflict e f = true := by
  rcases h with rfl | rfl <;> simp [conflict, subBlockOf]

/-- Only the platform may issue `RESET` (R262, log 10). -/
theorem mayIssue_construct (c : Context) : c.mayIssue .construct = (c == .platform) :=
  rfl

/-- Settles O60: a call of `construct` is refused whatever its operands, an overlap with it conflicts, and the
call without operands is refused for its context unless that is the platform. -/
theorem noStepPerformsReset : Obligations.NoStepPerformsReset := by
  intro s rest
  refine ⟨fun r hp he => step_construct_refused hp he,
    fun a b hp he => step_overlap_refused hp (conflict_construct he), fun c hp => ?_⟩
  by_cases hc : c = .platform
  · rw [if_pos hc]
    exact step_call_reset hp (by simp [mayIssue_construct, hc]) (decode_construct rfl)
  · rw [if_neg hc]
    exact step_wrongContext hp (by simp [mayIssue_construct, hc])

end Sys2Proof.Machine
